-- ==== Sys2Proof/Word.lean ====
section
/-! DEFINITION. The word of this hardware: one byte (00_scope.md R7, R13). -/

namespace Sys2Proof

/-- R7, R17: an unsigned 8-bit value. Bytes are compared with 0x00 and 0xFF and read as numbers; no rule reads a single bit. -/
abbrev Byte := BitVec 8

end Sys2Proof
end

