-- ==== Sys2Proof/Config.lean ====
section
/-! DEFINITION. What is fixed for one instance (00_scope.md section 4) and the one free value.
The constants of R7 are written out where they are used: the delimiter 0x00 and the length code 0xFF are no parameters (R5). -/

namespace Sys2Proof

/-- R10, D2: TS is a parameter. The syntax, the state and the whole machine take it as an argument (Machine/AnyTime.lean),
and this is only its default: the type at which the host's interface, which has no parameter, names the machine.
DESIGN CHOICE (log 1). -/
abbrev Timestamp := Nat

/-- R10, D2: a hardware realisation carries a timestamp as `TW` bits, `TW` an open parameter. -/
abbrev TimestampBits (TW : Nat) := BitVec TW

/-- R9, R17: which of the two codec variants is active. -/
inductive Variant where
  | cobs
  | cobsr
  deriving DecidableEq, Repr

/-- R17, R30 to R32: the configuration. D4, U4: prefix counts above 10 are not represented. -/
structure Config where
  /-- R8, R31 (`CFG_PREFIX`): how many leading bytes of a frame are discarded, 0 to 10. -/
  k       : Fin 11
  /-- R9, R32 (`CFG_VARIANT`). -/
  variant : Variant
  deriving DecidableEq, Repr

/-- `value(unset)` of R162, which "is never evaluated" (R169): a free value (log 10). DEDUCED: it is read only in states
no run reaches, and nothing may be proved of it. The argument is a plain counter, the number of frames emitted. -/
opaque Config.valueOfUnset {TS : Type} [Inhabited TS] : Nat → TS

end Sys2Proof
end

