-- ==== Sys2Proof/Syntax.lean ====
section
/-! DEFINITION. The formats of the two boundaries (30_encoding.md) and the nine operations of spec/opcode_table.json. -/

namespace Sys2Proof

/-- R17, R80: one byte with its start and end timestamps. -/
structure Event (TS : Type) where
  byte : Byte
  ts   : TS
  te   : TS
  deriving DecidableEq, Repr

/-- One constructor per row of spec/opcode_table.json, for every timestamp type (R10, D2). -/
inductive Instr (TS : Type := Timestamp) where
  /-- DELIM, event space (R154). The byte is 0x00; `te` is carried and not read. -/
  | delim (ts te : TS)
  /-- DATA, event space (R153). -/
  | data (b : Byte) (ts te : TS)
  /-- LEN_ZERO, length_code space (R113). -/
  | lenZero
  /-- LEN_MAX, length_code space (R127). -/
  | lenMax
  /-- LEN_CHUNK, length_code space (R126). -/
  | lenChunk (L : Byte)
  /-- DECODE_COBS, entry space: a direct call of `decode_cobs` (R128). -/
  | decodeCobs (input : List Byte)
  /-- DECODE_COBSR, entry space: a direct call of `decode_cobsr` (R129). -/
  | decodeCobsr (input : List Byte)
  /-- ON_BYTE, entry space: one Event is delivered (R162). -/
  | onByte (ev : Event TS)
  /-- RESET, entry space: the host asserts `rst` (R230). -/
  | reset
  deriving DecidableEq, Repr

/-- The three spaces of spec/opcode_table.json (R96). -/
inductive Space where
  | event
  | lengthCode
  | entry
  deriving DecidableEq, Repr

/-- The space in which the table lists an instruction. -/
def Instr.space {TS : Type} : Instr TS → Space
  | .delim _ _ => .event
  | .data _ _ _ => .event
  | .lenZero => .lengthCode
  | .lenMax => .lengthCode
  | .lenChunk _ => .lengthCode
  | .decodeCobs _ => .entry
  | .decodeCobsr _ => .entry
  | .onByte _ => .entry
  | .reset => .entry

/-- R82, R230 (D1, D7): the input ports in one step: `rst`, `in_valid`, `in_byte`, `in_ts`, `in_te`. -/
structure InPorts (TS : Type := Timestamp) where
  rst     : Bool
  inValid : Bool
  inByte  : Byte
  inTs    : TS
  inTe    : TS
  deriving DecidableEq, Repr

/-- What stands at a decode point of the block (R96): a byte of the event space inside its Event, the byte at the Codec's
cursor, or one of the ways the block is invoked. DESIGN CHOICE (log 16): the spec gives the entry space no bit pattern. -/
inductive Coded (TS : Type := Timestamp) where
  | event (ev : Event TS)
  | lengthCode (b : Byte)
  | ports (p : InPorts TS)
  /-- A direct call of the Codec (R110); the bit is `cfg_variant`'s code, 0 = COBS and 1 = COBS/R (R90). -/
  | call (variantBit : Bool) (input : List Byte)
  deriving DecidableEq, Repr

/-- The space to which a decode point belongs. -/
def Coded.space {TS : Type} : Coded TS → Space
  | .event _ => .event
  | .lengthCode _ => .lengthCode
  | .ports _ => .entry
  | .call _ _ => .entry

/-- One thing the environment presents to the block (R205, R235 to R238; log 8). -/
inductive Stimulus (TS : Type := Timestamp) where
  /-- One sample of the input ports (R82). -/
  | ports (p : InPorts TS)
  /-- A direct call of the Codec (R110). -/
  | call (variantBit : Bool) (input : List Byte)
  /-- The host presents the static ports `cfg_prefix[3:0]` and `cfg_variant` (R30, R90, R235). -/
  | configure (cfgPrefix : BitVec 4) (cfgVariant : Bool)
  deriving DecidableEq, Repr

end Sys2Proof
end

