-- ==== Sys2Proof/Machine/State.lean ====
section
/-! DEFINITION. The state (10_state.md), the outputs (R17) and the ways a step can stop. -/

namespace Sys2Proof.Machine

/-- R17, R190: the two decode errors. -/
inductive Reason where
  | zeroByteInInput
  | truncatedLengthCode
  deriving DecidableEq, Repr

/-- R17: "Exactly one variant is populated". -/
inductive DecodeResult where
  | message (payload : List Byte)
  | error (reason : Reason)
  deriving DecidableEq, Repr

/-- R17: what a flush emits. -/
structure TimedFrame (TS : Type) where
  result    : DecodeResult
  startTime : TS
  endTime   : TS
  deriving DecidableEq, Repr

/-- R17, R20: the Accumulator State, for any timestamp type (R10, D2). `none` is `unset`. -/
structure AccState (TS : Type) where
  /-- R21. -/
  received       : List Byte
  /-- R22. -/
  frameStartTime : Option TS
  /-- R23. -/
  frameEndTime   : Option TS
  deriving DecidableEq, Repr

/-- R18, R230: `reset_state`. -/
def AccState.reset {TS : Type} : AccState TS := ⟨[], none, none⟩

/-- R11, R35: the capacity `BUF_CAP`; the sticky bit `overflow` is there only when it is finite. -/
inductive Capacity where
  | unbounded
  | finite (bufCap : Nat) (overflow : Bool)
  deriving DecidableEq, Repr

/-- R26: the working values of one invocation of the Codec; `n` is `input.length`. -/
structure Codec where
  /-- R110: the variant the invocation decodes. -/
  variant : Variant
  /-- R26, R57: the immutable input view. -/
  input   : List Byte
  /-- R27: the cursor. -/
  idx     : Nat
  /-- R26: the current length code. -/
  length  : Byte
  /-- R26, R114: the bound `end`. -/
  bound   : Nat
  /-- R26: the output accumulator. -/
  out     : List Byte
  deriving DecidableEq, Repr

/-- R26, R112: the working values at the start of an invocation. DESIGN CHOICE (log 11): `length` and `bound`, which the
spec first assigns in the loop, start at 0. -/
def Codec.start (v : Variant) (input : List Byte) : Codec := ⟨v, input, 0, 0, 0, []⟩

/-- R26, R137: no invocation is open. DESIGN CHOICE (log 11): written as an invocation with an empty input. -/
def Codec.idle : Codec := Codec.start .cobs []

/-- The state of one instance, its configuration, and its two boundaries, for every timestamp type (R10, D2). -/
structure State (TS : Type := Timestamp) where
  /-- R30: the configuration that the static ports present (log 5). -/
  cfg      : Config
  /-- R30, R236: the `Config` of the present run, if the host has presented another one since; until RESET begins a new run no
  Event may then come (U5). `none` while the ports still present the run's `Config`: the model's own field (log 6). -/
  runCfg   : Option Config
  /-- R11, R35: `BUF_CAP` and `overflow` (log 2). -/
  capacity : Capacity
  /-- R20: the Accumulator State. -/
  acc      : AccState TS
  /-- R26: the Codec's working values (log 11, log 12). -/
  codec    : Codec
  /-- What the environment has still to present, oldest first: the model's own field (log 8). -/
  inputs   : List (Stimulus TS)
  /-- R16, R29, R92: the Timed Frame that the last step presented. -/
  out      : Option (TimedFrame TS)
  /-- R110: the Decode Result that the last step returned to a direct caller (log 9). -/
  ret      : Option DecodeResult
  /-- R18: all Timed Frames emitted, in emission order: the model's own field (log 9). -/
  emitted  : List (TimedFrame TS)
  deriving DecidableEq, Repr

/-- R231, and the values log 2, 5, 6, 8, 9 and 11 name: the state after reset, for every timestamp type. -/
def State.initial {TS : Type} : State TS where
  cfg      := ⟨0, .cobs⟩
  runCfg   := none
  capacity := .unbounded
  acc      := AccState.reset
  codec    := Codec.idle
  inputs   := []
  out      := none
  ret      := none
  emitted  := []

/-- The state after reset behind the host's interface. -/
def State.reset : State := State.initial

/-- Why the machine stops. No instruction's meaning raises a fault. -/
inductive Fault where
  /-- Raised by `step` when an invocation of the Codec is open and its cursor is not below `n`. R14 defines `input[idx]`
  only for `idx < n` and R132 shows that no invocation gets there. Safe (log 13). -/
  | fetchPastEnd
  deriving DecidableEq, Repr

/-- What the machine declines to do. -/
inductive Refusal where
  /-- Raised by `exec` for an instruction that has no meaning yet. Safe. No arm raises it. -/
  | notModelled (mnemonic : String)
  /-- Raised by `step` when the host presents a reserved prefix count, 11 to 15 (U4: `refuse`). Safe (log 6). -/
  | reservedPrefix
  /-- Raised by `step` when an Event is delivered to a run under another configuration than the run's: the host changed it
  between Events, with no RESET after (U5: `refuse`). Safe (log 6). -/
  | configChangedMidStream
  deriving DecidableEq, Repr

end Sys2Proof.Machine
end

