-- ==== Sys2Proof/Machine/Flags.lean ====
section
/-! DEFINITION. The one-bit facts: the two option tags (R28), `overflow` (R35, R196), and the tags and codes of the
output ports (R91 to R93, R193). -/

namespace Sys2Proof.Machine

/-- R28: the tag `fst_valid` of `frame_start_time`. -/
def AccState.fstValid {TS : Type} (S : AccState TS) : Bool := S.frameStartTime.isSome

/-- R28: the tag `fet_valid` of `frame_end_time`. -/
def AccState.fetValid {TS : Type} (S : AccState TS) : Bool := S.frameEndTime.isSome

/-- R196: the sticky bit `overflow` is set. -/
def Capacity.blocked : Capacity → Bool
  | .unbounded => false
  | .finite _ overflow => overflow

/-- R196: the buffer of `n` bytes is full, `len(received) == BUF_CAP`. -/
def Capacity.full (n : Nat) : Capacity → Bool
  | .unbounded => false
  | .finite bufCap _ => n == bufCap

/-- R196: `overflow <- 1`; without a finite capacity there is no such bit (R35). -/
def Capacity.setOverflow : Capacity → Capacity
  | .unbounded => .unbounded
  | .finite bufCap _ => .finite bufCap true

/-- R230: `overflow <- 0` where it exists. -/
def Capacity.clearOverflow : Capacity → Capacity
  | .unbounded => .unbounded
  | .finite bufCap _ => .finite bufCap false

/-- R92 (D5): `out_kind`, 0 for a Message and 1 for an Error. -/
def DecodeResult.kindBit : DecodeResult → Bool
  | .message _ => false
  | .error _ => true

/-- R193 (D5): `out_reason`. -/
def Reason.code : Reason → Bool
  | .zeroByteInInput => false
  | .truncatedLengthCode => true

/-- R193: the Reason of a code. -/
def reasonOfCode (b : Bool) : Reason := if b then .truncatedLengthCode else .zeroByteInInput

/-- R91: the reason strings. -/
def Reason.text : Reason → String
  | .zeroByteInInput => "zero byte found in input"
  | .truncatedLengthCode => "not enough input bytes for length code"

end Sys2Proof.Machine
end

