-- ==== Sys2Proof/WellFormed.lean ====
section
/-! DEFINITION. The ranges that the opcode table gives the operands (the column "values"). -/

namespace Sys2Proof

/-- R81: the byte of a DATA event is 0x01 to 0xFF. -/
def isDataByte (b : Byte) : Bool := b != 0x00#8

/-- R84: the length code of LEN_CHUNK is 0x01 to 0xFE. -/
def isChunkCode (L : Byte) : Bool := L != 0x00#8 && L != 0xFF#8

/-- Every operand of the instruction is in the range the table gives it. -/
def Instr.wf {TS : Type} : Instr TS → Bool
  | .delim _ _ => true
  | .data b _ _ => isDataByte b
  | .lenZero => true
  | .lenMax => true
  | .lenChunk L => isChunkCode L
  | .decodeCobs _ => true
  | .decodeCobsr _ => true
  | .onByte _ => true
  | .reset => true

/-- The well-formed instructions. -/
abbrev Instr.WellFormed {TS : Type} (i : Instr TS) : Prop := i.wf = true

end Sys2Proof
end

