-- ==== Sys2Proof/Decode.lean ====
section
/-! DEFINITION. Decoding of the two byte spaces, the entry space and the configuration (30_encoding.md), and the encoder. -/

namespace Sys2Proof

variable {TS : Type}

/-! ## The two byte spaces (R81, R84) -/

/-- R81: the two classes of Events. -/
inductive EventClass where
  | delim
  | data
  deriving DecidableEq, Repr

/-- R84: the three classes of length codes. -/
inductive LengthClass where
  | zero
  | max
  | chunk
  deriving DecidableEq, Repr

/-- R96: one row of a byte space: a byte matches if `byte &&& mask` is `pattern`. -/
structure ByteRow (α : Type) where
  pattern : Byte
  mask    : Byte
  cls     : α

/-- R96: the first row that matches, in the order of priority. -/
def firstMatch {α : Type} (b : Byte) : List (ByteRow α) → Option α
  | [] => none
  | r :: rest => if b &&& r.mask = r.pattern then some r.cls else firstMatch b rest

/-- The rows of the event space, priority 1 first. -/
def eventRows : List (ByteRow EventClass) := [⟨0x00#8, 0xFF#8, .delim⟩, ⟨0x00#8, 0x00#8, .data⟩]

/-- The rows of the length_code space, priority 1 first. -/
def lengthRows : List (ByteRow LengthClass) :=
  [⟨0x00#8, 0xFF#8, .zero⟩, ⟨0xFF#8, 0xFF#8, .max⟩, ⟨0x00#8, 0x00#8, .chunk⟩]

/-- R81, R152: the class of an Event, by its byte alone. -/
def eventClass (b : Byte) : EventClass := if b = 0x00#8 then .delim else .data

/-- R84: the class of a length code. -/
def lengthClass (b : Byte) : LengthClass :=
  if b = 0x00#8 then .zero else if b = 0xFF#8 then .max else .chunk

/-- R81: the instruction of the event space that an Event is. -/
def decodeEvent (ev : Event TS) : Instr TS :=
  match eventClass ev.byte with
  | .delim => .delim ev.ts ev.te
  | .data => .data ev.byte ev.ts ev.te

/-- R84: the instruction of the length_code space that a byte at the cursor is. -/
def decodeLengthCode (b : Byte) : Instr TS :=
  match lengthClass b with
  | .zero => .lenZero
  | .max => .lenMax
  | .chunk => .lenChunk b

/-! ## The entry space -/

/-- Why something presented to the block is no instruction or no configuration. -/
inductive Reject where
  /-- R82: `in_valid` is 0 and `rst` is 0; the step changes nothing. -/
  | idle
  /-- R90, R93(d), U4: `cfg_prefix` is 11 to 15. -/
  | reservedPrefix
  deriving DecidableEq, Repr

/-- R82: the Event that the ports deliver when `in_valid` is 1. -/
def InPorts.event (p : InPorts TS) : Event TS := ⟨p.inByte, p.inTs, p.inTe⟩

/-- R82, R232: the sample delivers an Event, since RESET does not win over it. -/
def InPorts.delivers (p : InPorts TS) : Bool := p.inValid && !p.rst

/-- The entry operation that a sample of the ports selects: RESET before everything (R232), ON_BYTE if an Event is
delivered (R82), else none. -/
def decodePorts (p : InPorts TS) : Except Reject (Instr TS) :=
  if p.rst then .ok .reset
  else if p.inValid then .ok (.onByte p.event)
  else .error .idle

/-- R32, R90: the code of a variant. -/
def decodeVariant (b : Bool) : Variant := if b then .cobsr else .cobs

/-- R110: the entry operation of a direct call of the Codec. -/
def decodeCall (variantBit : Bool) (input : List Byte) : Instr TS :=
  match decodeVariant variantBit with
  | .cobs => .decodeCobs input
  | .cobsr => .decodeCobsr input

/-- Decoding, total on everything that can stand at a decode point. -/
def decodeInstr : Coded TS → Except Reject (Instr TS)
  | .event ev => .ok (decodeEvent ev)
  | .lengthCode b => .ok (decodeLengthCode b)
  | .ports p => decodePorts p
  | .call variantBit input => .ok (decodeCall variantBit input)

/-- R90: the configuration that the static ports present; prefix counts 11 to 15 are reserved. -/
def decodeConfig (cfgPrefix : BitVec 4) (cfgVariant : Bool) : Except Reject Config :=
  if h : cfgPrefix.toNat < 11 then .ok ⟨⟨cfgPrefix.toNat, h⟩, decodeVariant cfgVariant⟩
  else .error .reservedPrefix

/-! ## The encoder -/

/-- R82: the ports that deliver an Event. -/
def portsOfEvent (ev : Event TS) : InPorts TS := ⟨false, true, ev.byte, ev.ts, ev.te⟩

/-- R230: the ports of a step in which only `rst` is asserted; RESET reads no other port, and the encoder gives the
timestamps the default of their type (log 16). -/
def resetPorts [Inhabited TS] : InPorts TS := ⟨true, false, 0x00#8, default, default⟩

/-- The inverse of `decodeInstr` on well-formed instructions. -/
def encode [Inhabited TS] : Instr TS → Coded TS
  | .delim ts te => .event ⟨0x00#8, ts, te⟩
  | .data b ts te => .event ⟨b, ts, te⟩
  | .lenZero => .lengthCode 0x00#8
  | .lenMax => .lengthCode 0xFF#8
  | .lenChunk L => .lengthCode L
  | .decodeCobs input => .call false input
  | .decodeCobsr input => .call true input
  | .onByte ev => .ports (portsOfEvent ev)
  | .reset => .ports resetPorts

/-- R90: the code of a variant. -/
def encodeVariant : Variant → Bool
  | .cobs => false
  | .cobsr => true

/-- R90: `cfg_prefix[3:0]` and `cfg_variant` of a configuration. -/
def encodeConfig (cfg : Config) : BitVec 4 × Bool := (BitVec.ofNat 4 cfg.k.val, encodeVariant cfg.variant)

/-! ## The opcode table's words -/

/-- The Event that an 8-bit word of the event space is; a word has no timestamps, so both are 0 (log 15). -/
def eventOfTableWord (w : Nat) : Event Timestamp := ⟨BitVec.ofNat 8 w, 0, 0⟩

/-- A table word has 8 bits and is read in the event space, the space of the boundary from which `step` fetches after
reset. DESIGN CHOICE (log 15): 0x00 and 0xFF are words of the length_code space too, which only the place of the byte tells
apart (R96). -/
def decodeTableWord (nbits w : Nat) : Option Instr :=
  if nbits = 8 ∧ w < 256 then some (decodeEvent (eventOfTableWord w)) else none

end Sys2Proof
end

