-- ==== Sys2Proof/Machine/Operands.lean ====
section
/-! DEFINITION. The operand forms: the clamped slice (R14, R54) and a length code's chunk (R85, R114). -/

namespace Sys2Proof.Machine

/-- R14, R54: `s[a:b]`, the elements at index `i` with `a <= i < min(b, len(s))`; it never fails. -/
def slice (s : List Byte) (a b : Nat) : List Byte := (s.take b).drop a

/-- R112: `input[idx]`, which R14 defines only for `idx < n`. -/
def Codec.fetch (c : Codec) : Option Byte := c.input[c.idx]?

/-- An invocation is open: it was started on a non-empty input and has not returned (R112, R132; log 11). -/
def Codec.isOpen (c : Codec) : Bool := !c.input.isEmpty

/-- R112, R114: `length` is read, the cursor moves past it, and `end <- idx + length - 1`. -/
def Codec.advance (c : Codec) (L : Byte) : Codec :=
  { c with length := L, idx := c.idx + 1, bound := c.idx + 1 + L.toNat - 1 }

/-- R115: the claimed chunk bytes that exist, `input[idx:end]`. -/
def Codec.chunk (c : Codec) : List Byte := slice c.input c.idx c.bound

end Sys2Proof.Machine
end

