-- ==== Sys2Proof/Machine/Ops.lean ====
section
/-! DEFINITION. The named operations: the Codec's loop body and `decode` (40_codec.md), the Accumulator's sub-steps and
`on_byte` (41_accumulator.md), and the ways an instruction leaves the state. -/

namespace Sys2Proof.Machine

/-! ## The Codec -/

/-- How one pass of the loop of R125 ends: it goes back to the fetch, or the invocation returns. -/
inductive CodecStep where
  | more (c : Codec)
  | done (r : DecodeResult)
  deriving DecidableEq, Repr

/-- Taking an error (R136, R199): the invocation returns `Error(reason)` and what had been appended to `out` is dropped.
Nothing is saved, no mode changes and control goes nowhere (R199), so there is nothing to return from (R201). -/
def raiseError (r : Reason) : CodecStep := .done (.error r)

/-- R116, R117: append the chunk and move the cursor to the unclamped bound. -/
def Codec.copyChunk (c : Codec) : Codec := { c with out := c.out ++ c.chunk, idx := c.bound }

/-- R119, R120: the length code claimed more bytes than remain; COBS/R salvages the length code. -/
def Codec.overrun (c : Codec) : CodecStep :=
  match c.variant with
  | .cobs => raiseError .truncatedLengthCode
  | .cobsr => .done (.message (c.out ++ [c.length]))

/-- R121, R122: more data remains; a zero is implied only if `length < 0xFF`. -/
def Codec.continue (c : Codec) : CodecStep :=
  .more (if c.length.toNat < 0xFF then { c with out := c.out ++ [0x00#8] } else c)

/-- R118, R123: the boundary test, in the order overrun, more, exact. -/
def Codec.boundary (c : Codec) : CodecStep :=
  if c.idx > c.input.length then c.overrun
  else if c.idx < c.input.length then c.continue
  else .done (.message c.out)

/-- The loop body of R125 for a length code that is not zero (R114 to R123). -/
def Codec.block (c : Codec) (L : Byte) : CodecStep :=
  if 0x00#8 ∈ (c.advance L).chunk then raiseError .zeroByteInInput
  else (c.advance L).copyChunk.boundary

/-- The loop body of R125: the class of the length code selects what is done (R84). -/
def Codec.body (c : Codec) (L : Byte) : CodecStep :=
  match lengthClass L with
  | .zero => raiseError .zeroByteInInput
  | .max => c.block 0xFF#8
  | .chunk => c.block L

/-- The loop of R125, at most `fuel` passes. R132: there are at most `n` passes and each starts with `idx < n`, so the
first two cases are not reached from `decode` (log 14). -/
def Codec.loop : Nat → Codec → DecodeResult
  | 0, c => .message c.out
  | fuel + 1, c =>
    match c.fetch with
    | none => .message c.out
    | some L =>
      match c.body L with
      | .done r => r
      | .more c' => Codec.loop fuel c'

/-- R125: `decode(variant, input)`. -/
def decode (v : Variant) (input : List Byte) : DecodeResult :=
  if input.length = 0 then .message [] else (Codec.start v input).loop input.length

/-! ## The Accumulator, for every timestamp type -/

section
variable {TS : Type}

/-- R151: the start latch. -/
def AccState.latchStart (S : AccState TS) (ts : TS) : AccState TS :=
  match S.frameStartTime with
  | none => { S with frameStartTime := some ts }
  | some _ => S

/-- R153, R56: append a data byte and take its end time. -/
def AccState.append (S : AccState TS) (b : Byte) (te : TS) : AccState TS :=
  { S with received := S.received ++ [b], frameEndTime := some te }

/-- R155, R156: remove the first `k` bytes if there are that many. -/
def AccState.strip (S : AccState TS) (k : Nat) : AccState TS :=
  if S.received.length ≥ k then { S with received := S.received.drop k } else S

/-- R157, R158: the Timed Frame of a stripped buffer, or none if it is empty. `u` is `value(unset)` (R169). -/
def AccState.frame (S : AccState TS) (v : Variant) (u : TS) : Option (TimedFrame TS) :=
  if S.received.length > 0 then
    some ⟨decode v S.received, S.frameStartTime.getD u, S.frameEndTime.getD u⟩
  else none

/-- R160: the state after every DELIM event. -/
def AccState.primed (ts : TS) : AccState TS := ⟨[], some ts, none⟩

/-- R154: the flush, steps 1 to 4. -/
def AccState.flush (S : AccState TS) (cfg : Config) (u ts : TS) : AccState TS × Option (TimedFrame TS) :=
  (AccState.primed ts, (S.strip cfg.k.val).frame cfg.variant u)

/-- R162: `on_byte`, with `u` for `value(unset)`. -/
def onByte (cfg : Config) (u : TS) (S : AccState TS) (ev : Event TS) : AccState TS × Option (TimedFrame TS) :=
  match eventClass ev.byte with
  | .delim => (S.latchStart ev.ts).flush cfg u ev.ts
  | .data => ((S.latchStart ev.ts).append ev.byte ev.te, none)

end

/-! ## Leaving an instruction -/

section
variable {TS : Type}

/-- A step that emits nothing and returns nothing. -/
def State.quiet (s : State TS) : State TS := { s with out := none, ret := none }

/-- A step of the Accumulator ends with the state `r.1` and presents `r.2` on the output boundary (R16, R29). -/
def State.accept (s : State TS) (r : AccState TS × Option (TimedFrame TS)) : State TS :=
  { s with acc := r.1, out := r.2, ret := none, emitted := s.emitted ++ r.2.toList }

/-- R196: a DATA event finds the buffer full: the start latch has run, the byte is not appended, `overflow` is set
(log 3). -/
def State.overrunBuffer (s : State TS) (ts : TS) : State TS :=
  { s with acc := s.acc.latchStart ts, capacity := s.capacity.setOverflow, out := none, ret := none }

/-- A direct call of the Codec returns `r` (R110), also while `overflow` is set (log 4). -/
def State.returning (s : State TS) (r : DecodeResult) : State TS := { s with out := none, ret := some r }

/-- One pass of the loop leaves the invocation open or ends it (R26: its working values are then dead). -/
def State.afterBlock (s : State TS) : CodecStep → State TS
  | .more c => { s with codec := c, out := none, ret := none }
  | .done r => { s with codec := Codec.idle, out := none, ret := some r }

/-- R235, R236: no Event has been processed since RESET (R24(c)), so the run has not begun. -/
def State.beforeFirstEvent (s : State TS) : Bool := !s.acc.fstValid

/-- R30, D11: the one `Config` of the present run. -/
def State.runConfig (s : State TS) : Config := s.runCfg.getD s.cfg

/-- R30, R235: the ports present `cfg`. If an Event has been processed, the run's own `Config` is kept beside it for as long
as the two differ (log 6). -/
def State.configured (s : State TS) (cfg : Config) : State TS :=
  { s with cfg := cfg, runCfg := if s.beforeFirstEvent ∨ cfg = s.runConfig then none else some s.runConfig,
           out := none, ret := none }

/-- R230: `reset_state`, `overflow` cleared where it exists, nothing emitted. The run is over, and the next one takes the
configuration that the ports present (R235). -/
def State.cleared (s : State TS) : State TS :=
  { s with acc := AccState.reset, capacity := s.capacity.clearOverflow, runCfg := none, out := none, ret := none }

/-- `value(unset)` for the frame about to be emitted (log 10). -/
def State.unsetTime [Inhabited TS] (s : State TS) : TS := Config.valueOfUnset s.emitted.length

/-- R196: a step of the Accumulator on an Event of class `cls`: nothing happens while `overflow` is set; a DATA event sets
it if the buffer is full; else the step is `r`. -/
def State.gated (s : State TS) (cls : EventClass) (ts : TS)
    (r : AccState TS × Option (TimedFrame TS)) : State TS :=
  if s.capacity.blocked then s.quiet
  else if cls = .data ∧ s.capacity.full s.acc.received.length = true then s.overrunBuffer ts
  else s.accept r

/-! ## The host's setting of the configuration -/

/-- R30, R90, R235: the host presents the configuration ports, at any time (log 6). -/
def configure (cfgPrefix : BitVec 4) (cfgVariant : Bool) (s : State TS) : Host.Outcome (State TS) Fault Refusal :=
  match decodeConfig cfgPrefix cfgVariant with
  | .error _ => .refused .reservedPrefix
  | .ok cfg => .next (s.configured cfg)

end

end Sys2Proof.Machine
end

