-- ==== Sys2Proof/Machine/Accumulator.lean ====
section
/-! DEFINITION. The meanings of DELIM, DATA and ON_BYTE (41_accumulator.md). -/

namespace Sys2Proof.Machine

variable {TS : Type} [Inhabited TS]

/-- DELIM (R154): the start latch, then the flush. The end timestamp of a DELIM event is not read. -/
def execDelim (ts _te : TS) (s : State TS) : Host.Outcome (State TS) Fault Refusal :=
  .next (s.gated .delim ts ((s.acc.latchStart ts).flush s.cfg s.unsetTime ts))

/-- DATA (R153): the start latch, then the append. -/
def execData (b : Byte) (ts te : TS) (s : State TS) : Host.Outcome (State TS) Fault Refusal :=
  .next (s.gated .data ts ((s.acc.latchStart ts).append b te, none))

/-- ON_BYTE (R150, R162). -/
def execOnByte (ev : Event TS) (s : State TS) : Host.Outcome (State TS) Fault Refusal :=
  .next (s.gated (eventClass ev.byte) ev.ts (onByte s.cfg s.unsetTime s.acc ev))

end Sys2Proof.Machine
end

