-- ==== Sys2Proof/Machine/CodecUnit.lean ====
section
/-! DEFINITION. The meanings of LEN_ZERO, LEN_MAX, LEN_CHUNK, DECODE_COBS and DECODE_COBSR (40_codec.md). -/

namespace Sys2Proof.Machine

variable {TS : Type}

/-- LEN_ZERO (R113): the error, before the cursor moves. -/
def execLenZero (s : State TS) : Host.Outcome (State TS) Fault Refusal :=
  .next (s.afterBlock (raiseError .zeroByteInInput))

/-- LEN_MAX (R127): the loop body with length 0xFF. -/
def execLenMax (s : State TS) : Host.Outcome (State TS) Fault Refusal :=
  .next (s.afterBlock (s.codec.block 0xFF#8))

/-- LEN_CHUNK (R126): the loop body with length L. -/
def execLenChunk (L : Byte) (s : State TS) : Host.Outcome (State TS) Fault Refusal :=
  .next (s.afterBlock (s.codec.block L))

/-- DECODE_COBS (R128). -/
def execDecodeCobs (input : List Byte) (s : State TS) : Host.Outcome (State TS) Fault Refusal :=
  .next (s.returning (decode .cobs input))

/-- DECODE_COBSR (R129). -/
def execDecodeCobsr (input : List Byte) (s : State TS) : Host.Outcome (State TS) Fault Refusal :=
  .next (s.returning (decode .cobsr input))

end Sys2Proof.Machine
end

