-- ==== Sys2Proof/Machine/Control.lean ====
section
/-! DEFINITION. The meaning of RESET (70_reset_and_hazards.md R230) and the output ports (30_encoding.md R92). -/

namespace Sys2Proof.Machine

variable {TS : Type}

/-- RESET (R230, D7): `reset_state`, `overflow` cleared, nothing emitted. The configuration on the ports is the host's (R236)
and stays (log 7); the run is over. -/
def execReset (s : State TS) : Host.Outcome (State TS) Fault Refusal :=
  .next s.cleared

/-- R92 (D1, D5): the output ports in one step. -/
structure OutPorts (TS : Type := Timestamp) where
  outValid   : Bool
  outKind    : Bool
  outReason  : Bool
  outStart   : TS
  outEnd     : TS
  outLen     : Nat
  outPayload : List Byte
  deriving DecidableEq, Repr

/-- R92: the ports that present a frame or none. U11: a field that means nothing has any value, so it is taken from `any`
(log 18); `out_payload` has its meaning up to `out_len`. -/
def outPorts (any : OutPorts TS) : Option (TimedFrame TS) → OutPorts TS
  | none => { any with outValid := false }
  | some f =>
    match f.result with
    | .message p =>
      { any with outValid := true, outKind := f.result.kindBit, outStart := f.startTime, outEnd := f.endTime,
                 outLen := p.length, outPayload := p ++ any.outPayload }
    | .error r =>
      { any with outValid := true, outKind := f.result.kindBit, outReason := r.code, outStart := f.startTime,
                 outEnd := f.endTime }

/-- R92: what a consumer reads off the ports. -/
def OutPorts.frame (p : OutPorts TS) : Option (TimedFrame TS) :=
  if p.outValid then
    some ⟨if p.outKind then .error (reasonOfCode p.outReason) else .message (p.outPayload.take p.outLen), p.outStart, p.outEnd⟩
  else none

end Sys2Proof.Machine
end

