-- ==== Sys2Proof/Machine/Dispatch.lean ====
section
/-! DEFINITION. One arm per constructor of Instr. -/

namespace Sys2Proof.Machine

def exec (i : Instr) (s : State) : Host.Outcome State Fault Refusal :=
  match i with
  | .delim ts te => Sys2Proof.Machine.execDelim ts te s
  | .data b ts te => Sys2Proof.Machine.execData b ts te s
  | .lenZero => Sys2Proof.Machine.execLenZero s
  | .lenMax => Sys2Proof.Machine.execLenMax s
  | .lenChunk L => Sys2Proof.Machine.execLenChunk L s
  | .decodeCobs input => Sys2Proof.Machine.execDecodeCobs input s
  | .decodeCobsr input => Sys2Proof.Machine.execDecodeCobsr input s
  | .onByte ev => Sys2Proof.Machine.execOnByte ev s
  | .reset => Sys2Proof.Machine.execReset s

end Sys2Proof.Machine
end

