-- ==== Sys2Proof/Machine/Boundary.lean ====
section
/-! DEFINITION. What one thing that the environment presents does (R82, R110, R235), one step around an `exec`, and how an
Event is placed where `step` fetches. -/

namespace Sys2Proof.Machine

variable {TS : Type}

/-- One thing the environment presents, acted on; `run` is what an instruction does. A port sample that selects no operation
changes nothing (R82). An Event is refused while the ports present another configuration than the run's (R236, U5; log 6). -/
def presentWith (run : Instr TS → State TS → Host.Outcome (State TS) Fault Refusal) (x : Stimulus TS) (s : State TS) :
    Host.Outcome (State TS) Fault Refusal :=
  match x with
  | .ports p =>
    if p.delivers = true ∧ s.runCfg.isSome = true then .refused .configChangedMidStream
    else
      match decodePorts p with
      | .ok i => run i s
      | .error _ => .next s.quiet
  | .call variantBit input => run (decodeCall variantBit input) s
  | .configure cfgPrefix cfgVariant => configure cfgPrefix cfgVariant s

/-- If an invocation of the Codec is open, the step runs the length code at its cursor (R112, R57; log 12). Else it takes
the next thing the environment presents (R58, R82); with nothing presented the boundary is idle (log 8). -/
def stepWith (run : Instr TS → State TS → Host.Outcome (State TS) Fault Refusal) (s : State TS) :
    Host.Outcome (State TS) Fault Refusal :=
  if s.codec.isOpen then
    match s.codec.fetch with
    | some L => run (decodeLengthCode L) s
    | none => .fault .fetchPastEnd
  else
    match s.inputs with
    | [] => .next s.quiet
    | x :: rest => presentWith run x { s with inputs := rest }

/-- The environment delivers an Event before everything else it has still to present, to a run under the configuration that
the ports present (log 8). -/
def State.deliver (s : State TS) (ev : Event TS) : State TS :=
  { s with runCfg := none, codec := Codec.idle, inputs := .ports (portsOfEvent ev) :: s.inputs }

end Sys2Proof.Machine
end

