-- ==== Sys2Proof/Machine/Step.lean ====
section
/-! DEFINITION. One step of the machine. -/

namespace Sys2Proof.Machine

/-- One step (R58), with `exec` for what an instruction does. -/
def step (s : State) : Host.Outcome State Fault Refusal := stepWith exec s

/-- The word is delivered as the next Event (log 8, log 15). No invocation of the Codec is then open and the run is under the
configuration on the ports, so that the very next step takes it. -/
def State.withFetchWord (s : State) (_nbits w : Nat) : State := s.deliver (eventOfTableWord w)

end Sys2Proof.Machine
end

