-- ==== Sys2Proof/Machine/AnyTime.lean ====
section
/-! DEFINITION. The machine for every timestamp type (R10, D2). `exec`, `step` and `core`, whose types the host's interface
fixes, are this machine at the default type `Timestamp` (log 1). No operation of the type is used; `Inhabited` only says that
it is not empty, so that the free value of log 10 exists. -/

namespace Sys2Proof.Machine

variable {TS : Type} [Inhabited TS]

/-- What an instruction does, for every timestamp type: the same meanings as in `exec`. -/
def execAt (i : Instr TS) (s : State TS) : Host.Outcome (State TS) Fault Refusal :=
  match i with
  | .delim ts te => execDelim ts te s
  | .data b ts te => execData b ts te s
  | .lenZero => execLenZero s
  | .lenMax => execLenMax s
  | .lenChunk L => execLenChunk L s
  | .decodeCobs input => execDecodeCobs input s
  | .decodeCobsr input => execDecodeCobsr input s
  | .onByte ev => execOnByte ev s
  | .reset => execReset s

/-- One step, for every timestamp type. -/
def stepAt (s : State TS) : Host.Outcome (State TS) Fault Refusal := stepWith execAt s

/-- R10: the machine with the timestamp type as its argument. -/
def coreAt (TS : Type) [Inhabited TS] : Host.Core :=
  { State := State TS, Fault := Fault, Refusal := Refusal, step := stepAt, reset := State.initial }

/-- R10, D2: the hardware realisation, with the width `TW` of a timestamp as its argument. -/
def coreOfWidth (TW : Nat) : Host.Core := coreAt (TimestampBits TW)

end Sys2Proof.Machine
end

