-- ==== Sys2Proof/Safety.lean ====
section
/-! DEFINITION. The terms in which claims are stated: the invariants of 10_state.md R24, the tiling of R89, whole runs
(00_scope.md R18), the renaming of timestamps (D2), and the oracle encoders of 95_test_vectors.md section 5. Nothing here is
part of the machine. -/

namespace Sys2Proof.Machine

/-! ## What holds between steps -/

/-- R24 (a), (b), (c). -/
def AccState.Inv {TS : Type} (S : AccState TS) : Prop :=
  (∀ b ∈ S.received, b ≠ 0x00#8) ∧
  (S.fetValid = true ↔ S.received ≠ []) ∧
  (S.fstValid = false → S.received = [] ∧ S.frameEndTime = none)

/-- R21: `n` buffered bytes do not exceed `BUF_CAP`. -/
def Capacity.holds (n : Nat) : Capacity → Prop
  | .unbounded => True
  | .finite bufCap _ => n ≤ bufCap

/-- R11: `BUF_CAP`, none if it is unbounded. -/
def Capacity.size : Capacity → Option Nat
  | .unbounded => none
  | .finite bufCap _ => some bufCap

/-- R132: at every fetch `idx < n`; outside an invocation the working values are dead (R26). -/
def Codec.Inv (c : Codec) : Prop := c = Codec.idle ∨ c.idx < c.input.length

/-- R30, log 6: a run's own `Config` is kept beside the one on the ports only if they differ and the run has begun. -/
def State.CfgInv {TS : Type} (s : State TS) : Prop :=
  ∀ c, s.runCfg = some c → c ≠ s.cfg ∧ s.acc.fstValid = true

/-- The invariant of the machine. -/
def State.Inv {TS : Type} (s : State TS) : Prop :=
  s.acc.Inv ∧ s.capacity.holds s.acc.received.length ∧ s.codec.Inv ∧ s.CfgInv

/-! ## Stuffed Buffers -/

/-- R125, R132: what an invocation whose cursor is at `c.idx` returns; each pass moves the cursor, so that as many passes as
bytes remain are enough. -/
def Codec.finish (c : Codec) : DecodeResult := c.loop (c.input.length - c.idx)

/-- R89(b): stepping `i <- i + b[i]` from `i`, at most `fuel` times, lands exactly on `len(b)`. -/
def tilesFrom (b : List Byte) : Nat → Nat → Bool
  | 0, i => i == b.length
  | fuel + 1, i =>
    if i = b.length then true
    else
      match b[i]? with
      | none => false
      | some L => tilesFrom b fuel (i + L.toNat)

/-- R89(b): the blocks of `b` tile it exactly. -/
def tiles (b : List Byte) : Bool := tilesFrom b b.length 0

/-! ## Runs of Events (R18) -/

section
variable {TS TS' : Type}

/-- R18: Events applied in order; the end state and the emitted frames in emission order. -/
def runEvents (cfg : Config) (u : TS) : AccState TS → List (Event TS) → AccState TS × List (TimedFrame TS)
  | S, [] => (S, [])
  | S, ev :: evs =>
    ((runEvents cfg u (onByte cfg u S ev).1 evs).1,
      (onByte cfg u S ev).2.toList ++ (runEvents cfg u (onByte cfg u S ev).1 evs).2)

/-- The frames of a stream of bytes that a delimiter ends (Glossary, Frame), each without its delimiter; `cur` holds the
bytes already buffered. -/
def framesOf : List Byte → List Byte → List (List Byte)
  | _, [] => []
  | cur, b :: bs => if b = 0x00#8 then cur :: framesOf [] bs else framesOf (cur ++ [b]) bs

/-- The bytes after the last delimiter (R19). -/
def unterminated : List Byte → List Byte → List Byte
  | cur, [] => cur
  | cur, b :: bs => if b = 0x00#8 then unterminated [] bs else unterminated (cur ++ [b]) bs

/-- R155 to R158 for one frame by itself: nothing for a frame of no bytes or of exactly `k`, else what the Codec returns for
it, stripped if it has more than `k` bytes and whole if it has fewer. -/
def resultOfFrame (cfg : Config) (frame : List Byte) : Option DecodeResult :=
  if frame.length = 0 ∨ frame.length = cfg.k.val then none
  else if frame.length > cfg.k.val then some (decode cfg.variant (frame.drop cfg.k.val))
  else some (decode cfg.variant frame)

/-! ## Renaming timestamps (R10, D2) -/

/-- An Event with its timestamps renamed. -/
def eventMap (f : TS → TS') (ev : Event TS) : Event TS' := ⟨ev.byte, f ev.ts, f ev.te⟩

/-- An Accumulator State with its timestamps renamed. -/
def accMap (f : TS → TS') (S : AccState TS) : AccState TS' :=
  ⟨S.received, S.frameStartTime.map f, S.frameEndTime.map f⟩

/-- A Timed Frame with its timestamps renamed. -/
def frameMap (f : TS → TS') (F : TimedFrame TS) : TimedFrame TS' := ⟨F.result, f F.startTime, f F.endTime⟩

/-- A sample of the input ports with its timestamps renamed. -/
def portsMap (f : TS → TS') (p : InPorts TS) : InPorts TS' := ⟨p.rst, p.inValid, p.inByte, f p.inTs, f p.inTe⟩

/-- A stimulus with its timestamps renamed. -/
def stimulusMap (f : TS → TS') : Stimulus TS → Stimulus TS'
  | .ports p => .ports (portsMap f p)
  | .call variantBit input => .call variantBit input
  | .configure cfgPrefix cfgVariant => .configure cfgPrefix cfgVariant

/-- An instruction with its timestamps renamed. -/
def instrMap (f : TS → TS') : Instr TS → Instr TS'
  | .delim ts te => .delim (f ts) (f te)
  | .data b ts te => .data b (f ts) (f te)
  | .lenZero => .lenZero
  | .lenMax => .lenMax
  | .lenChunk L => .lenChunk L
  | .decodeCobs input => .decodeCobs input
  | .decodeCobsr input => .decodeCobsr input
  | .onByte ev => .onByte (eventMap f ev)
  | .reset => .reset

/-- A state with every timestamp in it renamed. -/
def stateMap (f : TS → TS') (s : State TS) : State TS' where
  cfg      := s.cfg
  runCfg   := s.runCfg
  capacity := s.capacity
  acc      := accMap f s.acc
  codec    := s.codec
  inputs   := s.inputs.map (stimulusMap f)
  out      := s.out.map (frameMap f)
  ret      := s.ret
  emitted  := s.emitted.map (frameMap f)

/-- The outcome of a step with every timestamp in it renamed. -/
def outcomeMap (f : TS → TS') :
    Host.Outcome (State TS) Fault Refusal → Host.Outcome (State TS') Fault Refusal
  | .next s => .next (stateMap f s)
  | .fault r => .fault r
  | .refused r => .refused r

end

/-! ## Oracle encoders (95_test_vectors.md section 5)

PRESUMED: the spec supplies them from general knowledge (GK2, GK3) as oracles for round-trip laws (log 19). -/

/-- The number of bytes `n`, plus one, as a length code. -/
def codeAfter (n : Nat) : Byte := BitVec.ofNat 8 (n + 1)

/-- `enc_cobs` from the point where `cur` is `p[start:i]` and `finalZero` is `final_zero`. -/
def encCobsFrom : List Byte → Bool → List Byte → List Byte
  | cur, finalZero, [] => if cur ≠ [] ∨ finalZero = true then codeAfter cur.length :: cur else []
  | cur, finalZero, x :: xs =>
    if x = 0x00#8 then codeAfter cur.length :: cur ++ encCobsFrom [] true xs
    else if cur.length = 0xFD then 0xFF#8 :: (cur ++ [x]) ++ encCobsFrom [] false xs
    else encCobsFrom (cur ++ [x]) finalZero xs

/-- `enc_cobs`. -/
def encCobs (p : List Byte) : List Byte := encCobsFrom [] true p

/-- The end of `enc_cobsr`: the last byte takes the place of the length code if it is not below it. -/
def encCobsrEnd (cur : List Byte) : List Byte :=
  if (cur.getLastD 0x00#8).toNat < cur.length + 1 then codeAfter cur.length :: cur
  else cur.getLastD 0x00#8 :: cur.dropLast

/-- `enc_cobsr` from the point where `cur` is `p[start:i]`. -/
def encCobsrFrom : List Byte → List Byte → List Byte
  | cur, [] => encCobsrEnd cur
  | cur, x :: xs =>
    if cur.length = 0xFE then
      0xFF#8 :: cur ++ (if x = 0x00#8 then codeAfter 0 :: encCobsrFrom [] xs else encCobsrFrom [x] xs)
    else if x = 0x00#8 then codeAfter cur.length :: cur ++ encCobsrFrom [] xs
    else encCobsrFrom (cur ++ [x]) xs

/-- `enc_cobsr`. -/
def encCobsr (p : List Byte) : List Byte := encCobsrFrom [] p

end Sys2Proof.Machine
end

