-- ==== Sys2Proof/Certificates/Slice0/Obligations.lean ====
section
/-! DEFINITION. The statements for the provers. -/

open Sys2Proof Sys2Proof.Machine

/-! ## Formats -/

/-- R81: an Event is a DELIM or a DATA event by its byte alone, whatever its timestamps; the rows of the table, tried in the
order of priority, give the same class for every byte. -/
def Obligations.EventIsClassedByItsByteAlone : Prop :=
  ∀ (TS : Type) (ev : Event TS),
    decodeInstr (.event ev)
        = .ok (if ev.byte = 0x00#8 then .delim ev.ts ev.te else .data ev.byte ev.ts ev.te) ∧
    firstMatch ev.byte eventRows = some (if ev.byte = 0x00#8 then .delim else .data)

/-- 30_encoding.md section 2: a length code is of exactly one of three classes; the rows of the table give the same. -/
def Obligations.LengthCodeHasOneOfThreeClasses : Prop :=
  ∀ (TS : Type) (L : Byte),
    decodeInstr (.lengthCode L : Coded TS)
        = .ok (if L = 0x00#8 then .lenZero else if L = 0xFF#8 then .lenMax else .lenChunk L) ∧
    firstMatch L lengthRows = some (if L = 0x00#8 then .zero else if L = 0xFF#8 then .max else .chunk)

/-- Decoding undoes encoding for every well-formed instruction; what decodes is well formed, and encoding gives it back (of
the port samples with `rst` set, which differ only in ports that RESET does not read, the one the encoder writes). -/
def Obligations.DecodeAndEncodeAgree : Prop :=
  ∀ (TS : Type) [Inhabited TS],
  (∀ i : Instr TS, i.WellFormed → decodeInstr (encode i) = .ok i) ∧
  (∀ (c : Coded TS) (i : Instr TS), decodeInstr c = .ok i →
    i.WellFormed ∧ ((∀ p, c = .ports p → p.rst = true → p = resetPorts) → encode i = c))

/-- A few words: bytes of the two byte spaces, written out from the table's bits, and the four entries, for which the table
has no bits (R96). The model's choices: the bare table words are read in the event space, with timestamps 0 (log 15), and the
entries are decoded from a port sample or a direct call (log 16). -/
def Obligations.WrittenWordsDecode : Prop :=
  decodeTableWord 8 0x00 = some (.delim 0 0) ∧
  decodeTableWord 8 0x7E = some (.data 0x7E#8 0 0) ∧
  decodeTableWord 8 0xFF = some (.data 0xFF#8 0 0) ∧
  decodeInstr (.lengthCode 0b00000000#8 : Coded) = .ok .lenZero ∧
  decodeInstr (.lengthCode 0b11111111#8 : Coded) = .ok .lenMax ∧
  decodeInstr (.lengthCode 0b00000001#8 : Coded) = .ok (.lenChunk 1) ∧
  decodeInstr (.lengthCode 0b11111110#8 : Coded) = .ok (.lenChunk 254) ∧
  decodeInstr (.ports ⟨true, true, 0x41#8, 3, 4⟩) = .ok .reset ∧
  decodeInstr (.ports ⟨false, true, 0x41#8, 3, 4⟩) = .ok (.onByte ⟨0x41#8, 3, 4⟩) ∧
  decodeInstr (.call false [0x01#8] : Coded) = .ok (.decodeCobs [0x01#8]) ∧
  decodeInstr (.call true [0x01#8] : Coded) = .ok (.decodeCobsr [0x01#8])

/-- The spec's decision D4: `cfg_prefix` 0 to 10 and `cfg_variant` are the eleven prefix counts and the two variants, and 11
to 15 are no configuration. -/
def Obligations.ConfigurationCodesAgree : Prop :=
  (∀ cfg : Config, decodeConfig (encodeConfig cfg).1 (encodeConfig cfg).2 = .ok cfg) ∧
  (∀ (p : BitVec 4) (v : Bool), p.toNat ≤ 10 →
    ∃ cfg, decodeConfig p v = .ok cfg ∧ cfg.k.val = p.toNat ∧ cfg.variant = (if v then .cobsr else .cobs) ∧
      encodeConfig cfg = (p, v)) ∧
  (∀ (p : BitVec 4) (v : Bool), 11 ≤ p.toNat → decodeConfig p v = .error .reservedPrefix)

/-- The spec's decisions D1 and D5: the output ports carry the emitted frame, whatever the ports that mean nothing hold. -/
def Obligations.OutputPortsCarryTheFrame : Prop :=
  ∀ (TS : Type) (any : OutPorts TS) (f : Option (TimedFrame TS)),
    (outPorts any f).frame = f ∧
    (outPorts any f).outValid = f.isSome ∧
    (∀ F, f = some F →
      (outPorts any f).outStart = F.startTime ∧ (outPorts any f).outEnd = F.endTime ∧
      (∀ p, F.result = .message p →
        (outPorts any f).outKind = false ∧ (outPorts any f).outLen = p.length ∧
        (outPorts any f).outPayload.take p.length = p) ∧
      (F.result = .error .zeroByteInInput →
        (outPorts any f).outKind = true ∧ (outPorts any f).outReason = false) ∧
      (F.result = .error .truncatedLengthCode →
        (outPorts any f).outKind = true ∧ (outPorts any f).outReason = true))

/-! ## The step and the input boundary -/

/-- A step runs the decoded instruction: the length code at the cursor of an open invocation of the Codec, or the entry that
the next stimulus selects, taken off the queue. An Event runs as the DELIM or DATA instruction that it decodes to, and so
does the word that `withFetchWord` delivers. An Event runs while the ports present the run's configuration (`runCfg` is none;
where they do not is EventUnderAnotherConfigurationIsRefused). The model's choices: an invocation of the Codec that is open between steps, one
length code a step (log 12; in the spec one Event is one step); the queue of stimuli (log 8); the word of `withFetchWord` as
an Event with timestamps 0 (log 15). -/
def Obligations.StepRunsTheDecodedInstruction : Prop :=
  (∀ (s : State) (L : Byte) (i : Instr), s.codec.isOpen = true → s.codec.fetch = some L →
    decodeInstr (.lengthCode L) = .ok i → step s = exec i s) ∧
  (∀ (s : State) (p : InPorts) (rest : List Stimulus) (i : Instr), s.codec.isOpen = false →
    s.inputs = .ports p :: rest → decodeInstr (.ports p) = .ok i → (s.runCfg = none ∨ p.rst = true) →
    step s = exec i { s with inputs := rest }) ∧
  (∀ (s : State) (ev : Event Timestamp) (rest : List Stimulus) (i : Instr), s.codec.isOpen = false →
    s.inputs = .ports (portsOfEvent ev) :: rest → decodeInstr (.event ev) = .ok i → s.runCfg = none →
    step s = exec i { s with inputs := rest }) ∧
  (∀ (s : State) (b : Bool) (input : List Byte) (rest : List Stimulus) (i : Instr), s.codec.isOpen = false →
    s.inputs = .call b input :: rest → decodeInstr (.call b input) = .ok i →
    step s = exec i { s with inputs := rest }) ∧
  (∀ (s : State) (w : Nat) (i : Instr), decodeTableWord 8 w = some i →
    step (s.withFetchWord 8 w) = exec i { s with codec := Codec.idle, runCfg := none })

/-- 30_encoding.md section 1 (decision D1) and log 8: a port sample with `rst` and `in_valid` at 0, and an empty queue,
change nothing and emit nothing. -/
def Obligations.IdleStepChangesNothing : Prop :=
  (∀ (s : State) (p : InPorts) (rest : List Stimulus), s.codec.isOpen = false → s.inputs = .ports p :: rest →
    p.rst = false → p.inValid = false → step s = .next { s with inputs := rest, out := none, ret := none }) ∧
  (∀ s : State, s.codec.isOpen = false → s.inputs = [] → step s = .next { s with out := none, ret := none })

/-- The spec's decision D7: with `rst` asserted the step is RESET, whatever Event is on the ports: the Event is dropped and
nothing is emitted. -/
def Obligations.ResetWinsOverAnEvent : Prop :=
  ∀ (s : State) (p : InPorts) (rest : List Stimulus), s.codec.isOpen = false → s.inputs = .ports p :: rest →
    p.rst = true →
    step s = exec .reset { s with inputs := rest } ∧
    ∃ t, step s = .next t ∧ t.acc = AccState.reset ∧ t.out = none ∧ t.emitted = s.emitted ∧ t.cfg = s.cfg

/-- 70_reset_and_hazards.md section 2, decision D4 and U4; that presenting the ports is a step, and what the model keeps of it,
is the model's choice (log 6). The host may present a legal configuration at any time: the ports then hold it, and once an
Event has been processed the run's own is kept beside it, if the two differ. A reserved prefix count is refused. -/
def Obligations.HostPresentsTheConfiguration : Prop :=
  ∀ (s : State) (p : BitVec 4) (v : Bool) (rest : List Stimulus), s.codec.isOpen = false →
    s.inputs = .configure p v :: rest →
    (11 ≤ p.toNat → step s = .refused .reservedPrefix) ∧
    (∀ cfg, decodeConfig p v = .ok cfg → s.acc.frameStartTime = none →
      step s = .next { s with inputs := rest, cfg := cfg, runCfg := none, out := none, ret := none }) ∧
    (∀ cfg, decodeConfig p v = .ok cfg → s.acc.frameStartTime ≠ none →
      step s = .next { s with inputs := rest, cfg := cfg, out := none, ret := none,
                              runCfg := if cfg = s.runCfg.getD s.cfg then none else some (s.runCfg.getD s.cfg) })

/-- Decision D11 and U5 (`refuse`), in the model's form (log 6): while the ports present another configuration than the one the
run began under, an Event is refused; RESET is not. -/
def Obligations.EventUnderAnotherConfigurationIsRefused : Prop :=
  ∀ (s : State) (p : InPorts) (rest : List Stimulus), s.codec.isOpen = false → s.inputs = .ports p :: rest →
    s.runCfg ≠ none →
    (p.rst = false → p.inValid = true → step s = .refused .configChangedMidStream) ∧
    (p.rst = true → ∃ t, step s = .next t ∧ t.cfg = s.cfg ∧ t.runCfg = none ∧ t.acc = AccState.reset)

/-! ## The Frame Accumulator: one Event -/

/-- R153: a DATA event is appended, `frame_end_time` becomes its end time, the start latch sets `frame_start_time` only if it
is unset, nothing is emitted, and nothing else changes. -/
def Obligations.DataEventIsAppended : Prop :=
  ∀ (s : State) (b : Byte) (ts te : Timestamp), b ≠ 0x00#8 → s.capacity.blocked = false →
    s.capacity.full s.acc.received.length = false →
    exec (.data b ts te) s = .next { s with
      acc := ⟨s.acc.received ++ [b], some (s.acc.frameStartTime.getD ts), some te⟩, out := none, ret := none }

/-- R155 and R157 (with R160): when the buffer is not empty after the strip, DELIM emits what the Codec of the configured
variant returns for it, with the recorded times, and primes the next frame. The strip removes `k` bytes if there are that
many. Nothing else changes. -/
def Obligations.DelimEmitsTheDecodedFrame : Prop :=
  ∀ (s : State) (ts te e : Timestamp), s.capacity.blocked = false → s.acc.frameEndTime = some e →
    (if s.acc.received.length ≥ s.cfg.k.val then s.acc.received.drop s.cfg.k.val else s.acc.received) ≠ [] →
    exec (.delim ts te) s = .next { s with
      acc := ⟨[], some ts, none⟩,
      out := some ⟨decode s.cfg.variant
        (if s.acc.received.length ≥ s.cfg.k.val then s.acc.received.drop s.cfg.k.val else s.acc.received),
        s.acc.frameStartTime.getD ts, e⟩,
      ret := none,
      emitted := s.emitted ++ [⟨decode s.cfg.variant
        (if s.acc.received.length ≥ s.cfg.k.val then s.acc.received.drop s.cfg.k.val else s.acc.received),
        s.acc.frameStartTime.getD ts, e⟩] }

/-- R156: a frame of 1 to `k - 1` bytes is decoded whole; a frame of exactly `k` bytes is stripped to nothing and absorbed. -/
def Obligations.ShortFrameIsDecodedWhole : Prop :=
  ∀ (s : State) (ts te : Timestamp), s.capacity.blocked = false →
    (∀ e, s.acc.frameEndTime = some e → 1 ≤ s.acc.received.length → s.acc.received.length < s.cfg.k.val →
      ∃ t, exec (.delim ts te) s = .next t ∧
        t.out = some ⟨decode s.cfg.variant s.acc.received, s.acc.frameStartTime.getD ts, e⟩) ∧
    (s.acc.received.length = s.cfg.k.val → ∃ t, exec (.delim ts te) s = .next t ∧ t.out = none)

/-- R158: when the buffer is empty after the strip, a DELIM event emits nothing; it primes the next frame and changes nothing
else. -/
def Obligations.EmptyFrameIsAbsorbed : Prop :=
  ∀ (s : State) (ts te : Timestamp), s.capacity.blocked = false →
    (s.acc.received = [] ∨ s.acc.received.length = s.cfg.k.val) →
    exec (.delim ts te) s = .next { s with acc := ⟨[], some ts, none⟩, out := none, ret := none }

/-- R160: after every DELIM event, whatever was buffered and whatever the Codec returned, `received` is empty,
`frame_start_time` is the DELIM event's start time and `frame_end_time` is unset. -/
def Obligations.EveryDelimPrimesTheNextFrame : Prop :=
  ∀ (s : State) (ts te : Timestamp), s.capacity.blocked = false →
    ∃ t, exec (.delim ts te) s = .next t ∧ t.acc = ⟨[], some ts, none⟩

/-- 41_accumulator.md section 1: ON_BYTE accepts every Event in every state and runs as the DELIM or DATA instruction that
the Event decodes to. -/
def Obligations.OnByteDispatchesByClass : Prop :=
  ∀ (ev : Event Timestamp) (s : State),
    exec (.onByte ev) s = exec (decodeEvent ev) s ∧ ∃ t, exec (.onByte ev) s = .next t

/-- R162: `on_byte` as the rule's pseudocode assembles it. `value(unset)` is never evaluated (R169): the premise says that a
byte has been given its end time, and the 0 of the last `getD` is never taken. -/
def Obligations.OnByteIsTheNormativeAssembly : Prop :=
  ∀ (s : State) (ev : Event Timestamp), s.capacity = .unbounded →
    (s.acc.received ≠ [] → s.acc.frameEndTime ≠ none) →
    exec (.onByte ev) s =
      let start := match s.acc.frameStartTime with | none => ev.ts | some t => t
      if ev.byte = 0x00#8 then
        let stripped := if s.acc.received.length ≥ s.cfg.k.val then s.acc.received.drop s.cfg.k.val else s.acc.received
        let frame : Option (TimedFrame Timestamp) :=
          if stripped.length > 0 then
            some ⟨decode s.cfg.variant stripped, start, s.acc.frameEndTime.getD 0⟩
          else none
        .next { s with acc := ⟨[], some ev.ts, none⟩, out := frame, ret := none, emitted := s.emitted ++ frame.toList }
      else
        .next { s with acc := ⟨s.acc.received ++ [ev.byte], some start, some ev.te⟩, out := none, ret := none }

/-- 41_accumulator.md section 4 (an inference of the spec): an Event emits one frame if it is a DELIM event whose frame has a
byte count other than 0 and `k`, and none otherwise; what is presented is what is added to the list of emitted frames. -/
def Obligations.AtMostOneFramePerEvent : Prop :=
  ∀ (s : State) (ev : Event Timestamp),
    ∃ t, exec (.onByte ev) s = .next t ∧ t.emitted = s.emitted ++ t.out.toList ∧
      (t.out.isSome = true ↔ ev.byte = 0x00#8 ∧ s.capacity.blocked = false ∧
        1 ≤ s.acc.received.length ∧ s.acc.received.length ≠ s.cfg.k.val)

/-- 41_accumulator.md section 4 (an inference of the spec): a buffer that strips to `[01]` is emitted as a Message with an
empty payload. -/
def Obligations.EmptyPayloadIsEmitted : Prop :=
  ∀ (s : State) (ts te e : Timestamp), s.capacity.blocked = false → s.acc.frameEndTime = some e →
    s.acc.received.length ≥ s.cfg.k.val → s.acc.received.drop s.cfg.k.val = [0x01#8] →
    ∃ t, exec (.delim ts te) s = .next t ∧
      t.out = some ⟨.message [], s.acc.frameStartTime.getD ts, e⟩

/-- 41_accumulator.md section 4 (an inference of the spec): through the Accumulator no frame carries ZeroByteInInput, and
under COBS/R every emitted frame is a Message. -/
def Obligations.AccumulatorNeverReportsAZeroByte : Prop :=
  ∀ (s : State) (ev : Event Timestamp), s.acc.Inv →
    ∃ t, exec (.onByte ev) s = .next t ∧
      ∀ F, t.out = some F →
        F.result ≠ .error .zeroByteInInput ∧ (s.cfg.variant = .cobsr → ∃ p, F.result = .message p)

/-- The spec's decision D3, and log 3 for the start latch: a DATA event that finds the buffer full sets `overflow`, and its
byte is not appended. -/
def Obligations.FullBufferSetsOverflow : Prop :=
  ∀ (s : State) (b : Byte) (ts te : Timestamp) (cap : Nat), b ≠ 0x00#8 → s.capacity = .finite cap false →
    s.acc.received.length = cap →
    exec (.data b ts te) s = .next { s with
      acc := ⟨s.acc.received, some (s.acc.frameStartTime.getD ts), s.acc.frameEndTime⟩,
      capacity := .finite cap true, out := none, ret := none }

/-- The spec's decision D3: while `overflow` is set every Event leaves the state unchanged and emits nothing; RESET clears
it. -/
def Obligations.OverflowIsStickyUntilReset : Prop :=
  ∀ (s : State) (cap : Nat), s.capacity = .finite cap true →
    (∀ ts te, exec (.delim ts te) s = .next { s with out := none, ret := none }) ∧
    (∀ b ts te, exec (.data b ts te) s = .next { s with out := none, ret := none }) ∧
    (∀ ev, exec (.onByte ev) s = .next { s with out := none, ret := none }) ∧
    (∃ t, exec .reset s = .next t ∧ t.capacity = .finite cap false)

/-! ## The Codec -/

/-- 40_codec.md section 2: LEN_ZERO is ZeroByteInInput, at once, in both variants and at every position; the invocation ends
and what had been appended is dropped. That the first clause also holds of a LEN_ZERO executed while no invocation is open is
the model's choice (log 11): the spec describes the length code at the cursor of an invocation only. -/
def Obligations.LengthCodeZeroIsAnError : Prop :=
  (∀ s : State, exec .lenZero s =
    .next { s with codec := Codec.idle, out := none, ret := some (.error .zeroByteInInput) }) ∧
  (∀ c : Codec, c.fetch = some 0x00#8 → c.finish = .error .zeroByteInInput) ∧
  decode .cobs [0x00#8] = .error .zeroByteInInput ∧
  decode .cobs [0x02#8, 0x11#8, 0x00#8, 0x01#8] = .error .zeroByteInInput

/-- R126: LEN_CHUNK. With `p` the index of the length code and `n` the length of the input: an existing chunk byte 0x00 is an
error; else the chunk is copied, and the block is followed by a zero if more follows, ends the Message if it ends the input,
and if it overruns is an error under COBS and salvages the length code under COBS/R. -/
def Obligations.LengthCodeChunkEffect : Prop :=
  ∀ (s : State) (L : Byte), (Instr.lenChunk L : Instr).WellFormed → s.codec.idx < s.codec.input.length →
    (0x00#8 ∈ slice s.codec.input (s.codec.idx + 1) (s.codec.idx + L.toNat) →
      exec (.lenChunk L) s =
        .next { s with codec := Codec.idle, out := none, ret := some (.error .zeroByteInInput) }) ∧
    (0x00#8 ∉ slice s.codec.input (s.codec.idx + 1) (s.codec.idx + L.toNat) →
      (s.codec.idx + L.toNat < s.codec.input.length →
        (slice s.codec.input (s.codec.idx + 1) (s.codec.idx + L.toNat)).length = L.toNat - 1 ∧
        exec (.lenChunk L) s = .next { s with
          codec := { s.codec with
            length := L, bound := s.codec.idx + L.toNat, idx := s.codec.idx + L.toNat,
            out := s.codec.out ++ slice s.codec.input (s.codec.idx + 1) (s.codec.idx + L.toNat) ++ [0x00#8] },
          out := none, ret := none }) ∧
      (s.codec.idx + L.toNat = s.codec.input.length →
        (slice s.codec.input (s.codec.idx + 1) (s.codec.idx + L.toNat)).length = L.toNat - 1 ∧
        exec (.lenChunk L) s = .next { s with
          codec := Codec.idle, out := none,
          ret := some (.message (s.codec.out ++ slice s.codec.input (s.codec.idx + 1) (s.codec.idx + L.toNat))) }) ∧
      (s.codec.idx + L.toNat > s.codec.input.length →
        (slice s.codec.input (s.codec.idx + 1) (s.codec.idx + L.toNat)).length
          = s.codec.input.length - s.codec.idx - 1 ∧
        exec (.lenChunk L) s = .next { s with
          codec := Codec.idle, out := none,
          ret := some (match s.codec.variant with
            | .cobs => .error .truncatedLengthCode
            | .cobsr =>
              .message (s.codec.out ++ slice s.codec.input (s.codec.idx + 1) (s.codec.idx + L.toNat) ++ [L])) })) ∧
    decode .cobs [0x03#8, 0x11#8, 0x22#8, 0x02#8, 0x33#8] = .message [0x11#8, 0x22#8, 0x00#8, 0x33#8]

/-- R127: LEN_MAX, as LEN_CHUNK with `L = 255` except that no zero is implied when more follows; the rule's corner case and
example. -/
def Obligations.LengthCodeMaxEffect : Prop :=
  (∀ s : State, s.codec.idx < s.codec.input.length →
    (0x00#8 ∈ slice s.codec.input (s.codec.idx + 1) (s.codec.idx + 255) →
      exec .lenMax s =
        .next { s with codec := Codec.idle, out := none, ret := some (.error .zeroByteInInput) }) ∧
    (0x00#8 ∉ slice s.codec.input (s.codec.idx + 1) (s.codec.idx + 255) →
      (s.codec.idx + 255 < s.codec.input.length →
        (slice s.codec.input (s.codec.idx + 1) (s.codec.idx + 255)).length = 254 ∧
        exec .lenMax s = .next { s with
          codec := { s.codec with
            length := 0xFF#8, bound := s.codec.idx + 255, idx := s.codec.idx + 255,
            out := s.codec.out ++ slice s.codec.input (s.codec.idx + 1) (s.codec.idx + 255) },
          out := none, ret := none }) ∧
      (s.codec.idx + 255 = s.codec.input.length →
        (slice s.codec.input (s.codec.idx + 1) (s.codec.idx + 255)).length = 254 ∧
        exec .lenMax s = .next { s with
          codec := Codec.idle, out := none,
          ret := some (.message (s.codec.out ++ slice s.codec.input (s.codec.idx + 1) (s.codec.idx + 255))) }) ∧
      (s.codec.idx + 255 > s.codec.input.length →
        (slice s.codec.input (s.codec.idx + 1) (s.codec.idx + 255)).length
          = s.codec.input.length - s.codec.idx - 1 ∧
        exec .lenMax s = .next { s with
          codec := Codec.idle, out := none,
          ret := some (match s.codec.variant with
            | .cobs => .error .truncatedLengthCode
            | .cobsr =>
              .message (s.codec.out ++ slice s.codec.input (s.codec.idx + 1) (s.codec.idx + 255) ++ [0xFF#8])) }))) ∧
  (∀ c : List Byte, c.length = 254 → 0x00#8 ∉ c →
    decode .cobs (0xFF#8 :: c ++ [0x02#8, 0xFF#8]) = .message (c ++ [0xFF#8]) ∧
    decode .cobs (0xFF#8 :: c ++ [0x01#8]) = .message c)

/-- R125: `decode` is the loop of the rule's pseudocode: `finish c` is what the invocation returns from the fetch at
`c.idx`. -/
def Obligations.DecodeIsTheNormativeLoop : Prop :=
  (∀ v : Variant, decode v [] = .message []) ∧
  (∀ (v : Variant) (input : List Byte), input ≠ [] → decode v input = (Codec.start v input).finish) ∧
  (∀ (c : Codec) (length : Byte), c.fetch = some length →
    c.finish =
      if length = 0x00#8 then .error .zeroByteInInput
      else
        let idx := c.idx + 1
        let bound := idx + length.toNat - 1
        let chunk := slice c.input idx (min bound c.input.length)
        if 0x00#8 ∈ chunk then .error .zeroByteInInput
        else if bound > c.input.length then
          (if c.variant = .cobs then .error .truncatedLengthCode else .message (c.out ++ chunk ++ [length]))
        else if bound < c.input.length then
          ({ c with length := length, bound := bound, idx := bound,
                    out := c.out ++ chunk ++ (if length.toNat < 0xFF then [0x00#8] else []) } : Codec).finish
        else .message (c.out ++ chunk))

/-- 40_codec.md sections 1 and 4: a direct call of `decode_cobs` or `decode_cobsr` returns `decode(COBS, input)` or
`decode(COBSR, input)` and changes nothing else. That it does so also while `overflow` is set is DEDUCED, not the spec's
(log 4); that the result stands in `ret` is the model's choice (log 9). -/
def Obligations.DirectCallReturnsTheDecodeResult : Prop :=
  ∀ (input : List Byte) (s : State),
    exec (.decodeCobs input) s = .next { s with out := none, ret := some (decode .cobs input) } ∧
    exec (.decodeCobsr input) s = .next { s with out := none, ret := some (decode .cobsr input) }

/-- R130: the two variants differ only in what a pass that overruns returns. -/
def Obligations.VariantsDifferOnlyOnOverrun : Prop :=
  ∀ (c : Codec) (L : Byte),
    (L ≠ 0x00#8 → 0x00#8 ∉ slice c.input (c.idx + 1) (c.idx + L.toNat) → c.idx + L.toNat > c.input.length →
      ({ c with variant := .cobs } : Codec).body L = .done (.error .truncatedLengthCode) ∧
      ({ c with variant := .cobsr } : Codec).body L =
        .done (.message (c.out ++ slice c.input (c.idx + 1) (c.idx + L.toNat) ++ [L]))) ∧
    ((L = 0x00#8 ∨ 0x00#8 ∈ slice c.input (c.idx + 1) (c.idx + L.toNat) ∨ c.idx + L.toNat ≤ c.input.length) →
      (∀ r, ({ c with variant := .cobs } : Codec).body L = .done r ↔ ({ c with variant := .cobsr } : Codec).body L = .done r) ∧
      (∀ c' : Codec, ({ c with variant := .cobs } : Codec).body L = .more { c' with variant := .cobs } ↔
        ({ c with variant := .cobsr } : Codec).body L = .more { c' with variant := .cobsr }))

/-- 40_codec.md section 5 and 10_state.md section 3 (inferences of the spec): a pass that goes back to the fetch has moved
the cursor by its length code, at least 1, and keeps it inside the same input; no pass moves the cursor past `n + 254`. -/
def Obligations.CursorMovesForwardInsideTheInput : Prop :=
  ∀ (c : Codec) (L : Byte), c.idx < c.input.length →
    (c.advance L).copyChunk.idx ≤ c.input.length + 254 ∧
    ∀ c', c.body L = .more c' →
      c'.input = c.input ∧ c'.variant = c.variant ∧ c'.idx = c.idx + L.toNat ∧ c.idx < c'.idx ∧
      c'.idx < c'.input.length

/-- 30_encoding.md section 2 (an inference of the spec): which buffers decode without error. -/
def Obligations.WhichBuffersDecode : Prop :=
  ∀ b : List Byte,
    (∀ v : Variant, decode v b = .error .zeroByteInInput ↔ 0x00#8 ∈ b) ∧
    ((∃ p, decode .cobs b = .message p) ↔ 0x00#8 ∉ b ∧ tiles b = true) ∧
    (0x00#8 ∉ b → tiles b = false → decode .cobs b = .error .truncatedLengthCode) ∧
    (0x00#8 ∉ b → ∃ p, decode .cobsr b = .message p) ∧
    decode .cobsr b ≠ .error .truncatedLengthCode ∧
    (∀ p, decode .cobs b = .message p → decode .cobsr b = .message p)

/-- 40_codec.md section 5 (an inference of the spec): a payload is no longer than its buffer, and under COBS is shorter than
a buffer that is not empty. -/
def Obligations.PayloadIsNoLongerThanItsBuffer : Prop :=
  ∀ (b p : List Byte),
    (∀ v : Variant, decode v b = .message p → p.length ≤ b.length) ∧
    (b ≠ [] → decode .cobs b = .message p → p.length ≤ b.length - 1)

/-- The round-trip law of 40_codec.md section 4 for `decode_cobs`, with the oracle encoder of 95_test_vectors.md section 5
(PRESUMED there, log 19). -/
def Obligations.CobsRoundTrip : Prop :=
  ∀ p : List Byte, decode .cobs (encCobs p) = .message p

/-- The round trip for `decode_cobsr` with the oracle encoder of 95_test_vectors.md section 5 (PRESUMED there, log 19). -/
def Obligations.CobsrRoundTrip : Prop :=
  ∀ p : List Byte, decode .cobsr (encCobsr p) = .message p

/-- Running an open invocation of the Codec one length code a step returns what `decode` returns, within as many steps as
the input has bytes, and touches nothing outside the Codec. -/
def Obligations.SteppingAnInvocationComputesDecode : Prop :=
  ∀ (s : State) (v : Variant) (input : List Byte), input ≠ [] → s.codec = Codec.start v input →
    ∃ m, 1 ≤ m ∧ m ≤ input.length ∧
      core.run m s =
        .next { s with codec := Codec.idle, out := none, ret := some (decode v input) }

/-! ## RESET -/

/-- RESET restores `reset_state`, clears `overflow` where it exists and emits nothing (70_reset_and_hazards.md section 1; the
mechanism is the spec's decision D7). The configuration on the ports stays the host's (log 7), and no configuration of an
earlier run is kept (log 6). -/
def Obligations.ResetRestoresTheResetState : Prop :=
  ∀ s : State,
    (s.capacity = .unbounded →
      exec .reset s = .next { s with acc := ⟨[], none, none⟩, runCfg := none, out := none, ret := none }) ∧
    (∀ cap o, s.capacity = .finite cap o →
      exec .reset s = .next { s with
        acc := ⟨[], none, none⟩, capacity := .finite cap false, runCfg := none, out := none, ret := none })

/-- After reset `received` is empty, both timestamps are unset, `overflow` is not set and the output boundary is idle. That
the model's own record `emitted` is empty is the model's choice (log 9). -/
def Obligations.ResetValues : Prop :=
  State.reset.acc.received = [] ∧ State.reset.acc.frameStartTime = none ∧ State.reset.acc.frameEndTime = none ∧
  State.reset.capacity.blocked = false ∧ State.reset.out = none ∧ State.reset.emitted = []

/-! ## Frames: what is left alone -/

/-- The Codec's instructions change nothing of the configuration, the capacity, the Accumulator State, the queue of stimuli
and the emitted frames, and present no frame; a direct call also leaves an open invocation alone. Each completes. "In every
state" takes in two things that are the model's, not the spec's: a length code executed while no invocation is open (log 11,
DESIGN CHOICE), and a direct call or a length code while `overflow` is set (log 4, DEDUCED). -/
def Obligations.CodecInstructionsLeaveTheAccumulatorAlone : Prop :=
  (∀ (s : State) (i : Instr), (i = .lenZero ∨ i = .lenMax ∨ (∃ L, i = .lenChunk L) ∨ (∃ b, i = .decodeCobs b) ∨
      (∃ b, i = .decodeCobsr b)) →
    ∃ t, exec i s = .next t ∧ t.cfg = s.cfg ∧ t.runCfg = s.runCfg ∧ t.capacity = s.capacity ∧ t.acc = s.acc ∧ t.inputs = s.inputs ∧
      t.emitted = s.emitted ∧ t.out = none) ∧
  (∀ (s : State) (i : Instr), ((∃ b, i = .decodeCobs b) ∨ (∃ b, i = .decodeCobsr b)) →
    ∃ t, exec i s = .next t ∧ t.codec = s.codec)

/-- DELIM, DATA and ON_BYTE change nothing of the configuration, the size of the capacity, the Codec's working values and the
queue of stimuli, and return nothing to a direct caller. Each completes. -/
def Obligations.AccumulatorInstructionsLeaveTheRestAlone : Prop :=
  ∀ (s : State) (i : Instr), ((∃ ts te, i = .delim ts te) ∨ (∃ b ts te, i = .data b ts te) ∨ (∃ ev, i = .onByte ev)) →
    ∃ t, exec i s = .next t ∧ t.cfg = s.cfg ∧ t.runCfg = s.runCfg ∧ t.codec = s.codec ∧ t.inputs = s.inputs ∧ t.ret = none ∧
      (t.capacity = s.capacity ∨ ∃ cap, s.capacity = .finite cap false ∧ t.capacity = .finite cap true)

/-! ## Rules of the whole machine -/

/-- The invariant holds after reset. -/
def Obligations.InvariantHoldsAtReset : Prop := State.reset.Inv

/-- 10_state.md section 2 (an inference of the spec): every step keeps the invariant: `received` holds no 0x00 and fits the
capacity, `frame_end_time` is set exactly when `received` is not empty, an unset `frame_start_time` means that nothing is
buffered, the cursor of an open invocation is inside its input, and a run's own configuration is kept beside the one on the
ports only if they differ and the run has begun (log 6). -/
def Obligations.EveryStepKeepsTheInvariant : Prop :=
  ∀ s t : State, s.Inv → step s = .next t → t.Inv

/-- The machine stops only by the fault `fetchPastEnd`, which the invariant rules out, where the host presents a reserved
prefix count (U4), or where an Event comes under another configuration than the run's (U5). The forms of the two refusals are
log 6. -/
def Obligations.StepStopsOnlyOnConfiguration : Prop :=
  ∀ s : State, s.Inv →
    (∀ f, step s ≠ .fault f) ∧
    (∀ r, step s = .refused r →
      (r = .reservedPrefix ∧ ∃ p v rest, s.inputs = .configure p v :: rest ∧ 11 ≤ p.toNat) ∨
      (r = .configChangedMidStream ∧ s.runCfg ≠ none ∧
        ∃ p rest, s.inputs = .ports p :: rest ∧ p.rst = false ∧ p.inValid = true))

/-- R161: a Timed Frame is emitted only by a step whose Event is a DELIM event; no other step, RESET and an idle step among
them, presents a frame or adds one. -/
def Obligations.FramesComeOnlyFromDelimiters : Prop :=
  ∀ s t : State, step s = .next t → (t.out ≠ none ∨ t.emitted ≠ s.emitted) →
    ∃ p rest, s.inputs = .ports p :: rest ∧ p.rst = false ∧ p.inValid = true ∧ p.inByte = 0x00#8

/-- 10_state.md section 5: a step changes the configuration on the ports only where the host presents another one. The size
of the capacity, a parameter (00_scope.md section 4, log 2), never changes. -/
def Obligations.OnlyTheHostChangesTheConfiguration : Prop :=
  ∀ s t : State, step s = .next t →
    (t.cfg ≠ s.cfg → ∃ p v rest, s.inputs = .configure p v :: rest ∧ decodeConfig p v = .ok t.cfg) ∧
    t.capacity.size = s.capacity.size

/-- Decision D11, "`Config` is one value per run": from the first Event of a run until RESET the run's configuration is one
value, whatever the host presents meanwhile, and every Event that is processed finds that value on the ports. That the run's
value is kept in `runCfg` while the ports differ is the model's form of it (log 6). -/
def Obligations.OneConfigurationPerRun : Prop :=
  ∀ s t : State, s.Inv → step s = .next t →
    (s.acc.frameStartTime ≠ none →
      t.runConfig = s.runConfig ∨ ∃ p rest, s.inputs = .ports p :: rest ∧ p.rst = true) ∧
    (∀ p rest, s.codec.isOpen = false → s.inputs = .ports p :: rest → p.rst = false → p.inValid = true →
      s.cfg = s.runConfig ∧ t.cfg = s.cfg ∧ t.runConfig = s.runConfig)

/-- 10_state.md section 2 (an inference of the spec): once set, `frame_start_time` stays set until RESET. -/
def Obligations.StartTimeStaysSetUntilReset : Prop :=
  ∀ s t : State, step s = .next t → s.acc.frameStartTime ≠ none →
    t.acc.frameStartTime ≠ none ∨ ∃ p rest, s.inputs = .ports p :: rest ∧ p.rst = true

/-- 20_memory.md section 2 and 10_state.md section 2: a step leaves `received` as it is, appends the byte of its DATA event,
or clears it. Which steps may clear it is the next statement. -/
def Obligations.ReceivedIsOnlyAppendedToOrCleared : Prop :=
  ∀ s t : State, step s = .next t →
    t.acc.received = s.acc.received ∨ t.acc.received = [] ∨
    ∃ p rest, s.inputs = .ports p :: rest ∧ p.rst = false ∧ p.inValid = true ∧ p.inByte ≠ 0x00#8 ∧
      t.acc.received = s.acc.received ++ [p.inByte]

/-- 20_memory.md section 2 and 10_state.md section 2: bytes that were buffered are cleared only by a DELIM event or by
RESET. -/
def Obligations.ReceivedIsClearedOnlyByDelimOrReset : Prop :=
  ∀ s t : State, step s = .next t → s.acc.received ≠ [] → t.acc.received = [] →
    ∃ p rest, s.inputs = .ports p :: rest ∧ (p.rst = true ∨ (p.inValid = true ∧ p.inByte = 0x00#8))

/-! ## Every timestamp type (R10, decision D2) -/

/-- Decision D2: `exec`, `step` and `State.reset` are the machine for every timestamp type, at the default type. -/
def Obligations.HostMachineIsTheMachineAtTheDefaultTimestamp : Prop :=
  (∀ (i : Instr) (s : State), exec i s = execAt i s) ∧ (∀ s : State, step s = stepAt s) ∧ State.reset = State.initial

/-- Decision D2: the whole machine only copies timestamps. From every state whose Accumulator State has the invariant,
renaming every timestamp, by any function into any type, renames those of the outcome of every instruction and of every step,
and changes nothing else. -/
def Obligations.RenamingTimestampsCommutesWithTheMachine : Prop :=
  ∀ (TS TS' : Type) [Inhabited TS] [Inhabited TS'] (f : TS → TS') (s : State TS), s.acc.Inv →
    (∀ i : Instr TS, execAt (instrMap f i) (stateMap f s) = outcomeMap f (execAt i s)) ∧
    stepAt (stateMap f s) = outcomeMap f (stepAt s)

/-- Decision D2: for every timestamp type, every state with the invariant is a renaming of a state of `core`, and every run
from it is that renaming of `core`'s run: what is said of `core` at its default type is said of them all. -/
def Obligations.EveryTimestampTypeRenamesTheHostMachine : Prop :=
  ∀ (TS : Type) [Inhabited TS] (s : State TS), s.Inv →
    ∃ (f : Timestamp → TS) (s₀ : State), s₀.Inv ∧ stateMap f s₀ = s ∧
      ∀ m : Nat, (coreAt TS).run m s = outcomeMap f (core.run m s₀)

/-- Decision D2: timestamps are only copied. Renaming every timestamp, by any function into any type, renames those of the
next state and of the emitted frame and changes nothing else. -/
def Obligations.TimestampsAreOnlyCopied : Prop :=
  ∀ (TS TS' : Type) (f : TS → TS') (cfg : Config) (u : TS) (S : AccState TS) (ev : Event TS),
    onByte cfg (f u) (accMap f S) (eventMap f ev) =
      (accMap f (onByte cfg u S ev).1, (onByte cfg u S ev).2.map (frameMap f))

/-! ## Runs -/

/-- 00_scope.md section 5 (an inference of the spec): from a state with the invariant, with an unbounded capacity and no open
invocation, the machine that is presented a list of Events takes one step for each, ends in the state of the fold of
`on_byte` over them, and emits the fold's frames in its order, whatever `value(unset)` is. -/
def Obligations.RunIsTheFoldOfOnByte : Prop :=
  ∀ (s : State) (evs : List (Event Timestamp)) (u : Timestamp), s.Inv → s.capacity = .unbounded →
    s.codec = Codec.idle → s.runCfg = none → s.inputs = evs.map (fun ev => .ports (portsOfEvent ev)) →
    ∃ t, core.run evs.length s = .next t ∧ t.acc = (runEvents s.cfg u s.acc evs).1 ∧
      t.emitted = s.emitted ++ (runEvents s.cfg u s.acc evs).2 ∧ t.cfg = s.cfg ∧ t.inputs = []

/-- 70_reset_and_hazards.md section 2, the start-up order: on any instance, used or not, whatever is left of an earlier stream
and of its configuration, the host presents a configuration, then applies RESET, and the Events that follow are processed from
`reset_state` under the new configuration. The stimuli and one step for each are the model's form of it (log 8); the capacity
is the unbounded one. -/
def Obligations.StartUpOrderBeginsANewRun : Prop :=
  ∀ (s : State) (p : BitVec 4) (v : Bool) (cfg : Config) (r : InPorts) (evs : List (Event Timestamp)) (u : Timestamp),
    s.capacity = .unbounded → s.codec = Codec.idle → decodeConfig p v = .ok cfg → r.rst = true →
    s.inputs = .configure p v :: .ports r :: evs.map (fun ev => .ports (portsOfEvent ev)) →
    core.run 2 s = .next { s with
      inputs := evs.map (fun ev => .ports (portsOfEvent ev)), cfg := cfg, runCfg := none, acc := AccState.reset,
      out := none, ret := none } ∧
    ∃ t, core.run (evs.length + 2) s = .next t ∧ t.acc = (runEvents cfg u AccState.reset evs).1 ∧
      t.emitted = s.emitted ++ (runEvents cfg u AccState.reset evs).2 ∧ t.cfg = cfg

/-- The results of a run from `reset_state` are those of its delimiter-terminated frames, each taken by itself: none for a
frame of 0 or exactly `k` bytes, else what the Codec returns for it; the bytes after the last delimiter are never decoded
and stay in `received` (41_accumulator.md section 4, 00_scope.md section 7). -/
def Obligations.EachFrameIsDecodedByItself : Prop :=
  ∀ (TS : Type) (cfg : Config) (u : TS) (evs : List (Event TS)),
    (runEvents cfg u AccState.reset evs).2.map TimedFrame.result =
      (framesOf [] (evs.map Event.byte)).filterMap (resultOfFrame cfg) ∧
    (runEvents cfg u AccState.reset evs).1.received = unterminated [] (evs.map Event.byte)

/-- 41_accumulator.md section 4 (inferences of the spec): the end time of an emitted frame is that of its last DATA event;
its start time is the start time of the DELIM event before it, and for the first frame after reset that of its first
Event. -/
def Obligations.FrameTimesComeFromTheseEvents : Prop :=
  ∀ (TS : Type) (cfg : Config) (u : TS) (datas : List (Event TS)) (last d : Event TS),
    (∀ ev ∈ datas, ev.byte ≠ 0x00#8) → last.byte ≠ 0x00#8 → d.byte = 0x00#8 → datas.length + 1 ≠ cfg.k.val →
    (∀ (S : AccState TS) (d₀ : Event TS), d₀.byte = 0x00#8 →
      ∃ r, (runEvents cfg u S (d₀ :: datas ++ [last, d])).2 =
        (onByte cfg u S d₀).2.toList ++ [⟨r, d₀.ts, last.te⟩]) ∧
    (∃ r, (runEvents cfg u AccState.reset (datas ++ [last, d])).2 =
      [⟨r, ((datas ++ [last]).head (by simp)).ts, last.te⟩])

/-- Decision D12: if the source keeps its timestamps in order, every emitted frame has its times in order. The premise is the
source's duty, which the block does not check. -/
def Obligations.OrderedEventsGiveOrderedFrames : Prop :=
  ∀ (cfg : Config) (u : Timestamp) (evs : List (Event Timestamp)),
    (∀ ev ∈ evs, ev.ts ≤ ev.te) → evs.Pairwise (fun a b => a.ts ≤ b.te) →
    ∀ F ∈ (runEvents cfg u AccState.reset evs).2, F.startTime ≤ F.endTime

/-- A payload that a sender frames with the oracle encoder of 95_test_vectors.md section 5 (PRESUMED there, log 19), behind
`k` prefix bytes and before a delimiter, comes out of the Accumulator as that payload, whichever frames came before: from
every state in which nothing is buffered. The same holds for COBS and for COBS/R. -/
def Obligations.FramedPayloadIsReceived : Prop :=
  ∀ (TS : Type) (cfg : Config) (u : TS) (S : AccState TS) (prefixBytes p : List Byte) (evs : List (Event TS)),
    S.received = [] → prefixBytes.length = cfg.k.val → 0x00#8 ∉ prefixBytes →
    evs.map Event.byte = prefixBytes ++ (match cfg.variant with | .cobs => encCobs p | .cobsr => encCobsr p) ++ [0x00#8] →
    (runEvents cfg u S evs).2.map TimedFrame.result = [.message p] ∧ (runEvents cfg u S evs).1.received = []
end

