-- ==== Sys2Proof/Laws/Decode.lean ====
section
/-! SUPPORT. The small lemmas of the classes and of the decoders. -/

namespace Sys2Proof

variable {TS : Type}

theorem eventClass_eq_delim {b : Byte} : eventClass b = .delim ↔ b = 0x00#8 := by
  unfold eventClass; split <;> simp_all

theorem eventClass_eq_data {b : Byte} : eventClass b = .data ↔ b ≠ 0x00#8 := by
  unfold eventClass; split <;> simp_all

theorem lengthClass_eq_zero {b : Byte} : lengthClass b = .zero ↔ b = 0x00#8 := by
  unfold lengthClass; split <;> [simp_all; split <;> simp_all]

theorem lengthClass_eq_max {b : Byte} : lengthClass b = .max ↔ b = 0xFF#8 := by
  unfold lengthClass; split <;> [simp_all; split <;> simp_all]

theorem lengthClass_eq_chunk {b : Byte} : lengthClass b = .chunk ↔ b ≠ 0x00#8 ∧ b ≠ 0xFF#8 := by
  unfold lengthClass; split <;> [simp_all; split <;> simp_all]

/-- A length code that is not zero, read as a number, is at least 1. -/
theorem one_le_toNat {b : Byte} (h : b ≠ 0x00#8) : 1 ≤ b.toNat := by
  rcases Nat.eq_zero_or_pos b.toNat with h0 | h0
  · exact absurd (BitVec.eq_of_toNat_eq (by simpa using h0)) h
  · exact h0

/-- R81: the decoder of the event space, with its class written out. -/
theorem decodeEvent_eq (ev : Event TS) :
    decodeEvent ev = if ev.byte = 0x00#8 then .delim ev.ts ev.te else .data ev.byte ev.ts ev.te := by
  unfold decodeEvent eventClass; split <;> simp_all

/-- R84: the decoder of the length_code space, with its class written out. -/
theorem decodeLengthCode_eq (b : Byte) :
    (decodeLengthCode b : Instr TS) = if b = 0x00#8 then .lenZero else if b = 0xFF#8 then .lenMax else .lenChunk b := by
  unfold decodeLengthCode
  cases h : lengthClass b with
  | zero => simp [lengthClass_eq_zero.mp h]
  | max => simp [lengthClass_eq_max.mp h]
  | chunk =>
    obtain ⟨h0, h1⟩ := lengthClass_eq_chunk.mp h
    rw [if_neg h0, if_neg h1]

/-- What a sample of the ports selects: one inversion lemma for `decodePorts`. -/
theorem decodePorts_cases (p : InPorts TS) :
    (p.rst = true ∧ decodePorts p = .ok .reset) ∨
    (p.rst = false ∧ p.inValid = true ∧ decodePorts p = .ok (.onByte p.event)) ∨
    (p.rst = false ∧ p.inValid = false ∧ decodePorts p = .error .idle) := by
  unfold decodePorts; cases p.rst <;> cases p.inValid <;> simp

@[simp] theorem decodePorts_portsOfEvent (ev : Event TS) : decodePorts (portsOfEvent ev) = .ok (.onByte ev) := rfl

@[simp] theorem decodePorts_resetPorts [Inhabited TS] : decodePorts (resetPorts : InPorts TS) = .ok .reset := rfl

end Sys2Proof
end

