-- ==== Sys2Proof/Laws/State.lean ====
section
/-! SUPPORT. One lemma per field per update, so that no later proof unfolds a record update. -/

namespace Sys2Proof.Machine

/-! ## The Accumulator State -/

section
variable {TS : Type}

@[simp] theorem reset_received : (AccState.reset : AccState TS).received = [] := rfl
@[simp] theorem reset_frameStartTime : (AccState.reset : AccState TS).frameStartTime = none := rfl
@[simp] theorem reset_frameEndTime : (AccState.reset : AccState TS).frameEndTime = none := rfl

@[simp] theorem primed_received (ts : TS) : (AccState.primed ts).received = [] := rfl
@[simp] theorem primed_frameStartTime (ts : TS) : (AccState.primed ts).frameStartTime = some ts := rfl
@[simp] theorem primed_frameEndTime (ts : TS) : (AccState.primed ts).frameEndTime = none := rfl

@[simp] theorem append_received (S : AccState TS) (b : Byte) (te : TS) : (S.append b te).received = S.received ++ [b] := rfl
@[simp] theorem append_frameStartTime (S : AccState TS) (b : Byte) (te : TS) :
    (S.append b te).frameStartTime = S.frameStartTime := rfl
@[simp] theorem append_frameEndTime (S : AccState TS) (b : Byte) (te : TS) : (S.append b te).frameEndTime = some te := rfl

@[simp] theorem latchStart_received (S : AccState TS) (ts : TS) : (S.latchStart ts).received = S.received := by
  unfold AccState.latchStart; split <;> rfl
@[simp] theorem latchStart_frameStartTime (S : AccState TS) (ts : TS) :
    (S.latchStart ts).frameStartTime = some (S.frameStartTime.getD ts) := by
  unfold AccState.latchStart; split <;> simp_all
@[simp] theorem latchStart_frameEndTime (S : AccState TS) (ts : TS) :
    (S.latchStart ts).frameEndTime = S.frameEndTime := by
  unfold AccState.latchStart; split <;> rfl

theorem latchStart_eq (S : AccState TS) (ts : TS) :
    S.latchStart ts = ⟨S.received, some (S.frameStartTime.getD ts), S.frameEndTime⟩ := by
  unfold AccState.latchStart
  split <;> (cases S; simp_all)

@[simp] theorem strip_frameStartTime (S : AccState TS) (k : Nat) : (S.strip k).frameStartTime = S.frameStartTime := by
  unfold AccState.strip; split <;> rfl
@[simp] theorem strip_frameEndTime (S : AccState TS) (k : Nat) : (S.strip k).frameEndTime = S.frameEndTime := by
  unfold AccState.strip; split <;> rfl
theorem strip_received (S : AccState TS) (k : Nat) :
    (S.strip k).received = if S.received.length ≥ k then S.received.drop k else S.received := by
  unfold AccState.strip; split <;> rfl

@[simp] theorem flush_fst (S : AccState TS) (cfg : Config) (u ts : TS) : (S.flush cfg u ts).1 = AccState.primed ts := rfl
theorem flush_snd (S : AccState TS) (cfg : Config) (u ts : TS) :
    (S.flush cfg u ts).2 = (S.strip cfg.k.val).frame cfg.variant u := rfl

end

/-! ## The Codec's working values -/

@[simp] theorem start_variant (v : Variant) (input : List Byte) : (Codec.start v input).variant = v := rfl
@[simp] theorem start_input (v : Variant) (input : List Byte) : (Codec.start v input).input = input := rfl
@[simp] theorem start_idx (v : Variant) (input : List Byte) : (Codec.start v input).idx = 0 := rfl
@[simp] theorem start_length (v : Variant) (input : List Byte) : (Codec.start v input).length = 0 := rfl
@[simp] theorem start_bound (v : Variant) (input : List Byte) : (Codec.start v input).bound = 0 := rfl
@[simp] theorem start_out (v : Variant) (input : List Byte) : (Codec.start v input).out = [] := rfl

@[simp] theorem advance_variant (c : Codec) (L : Byte) : (c.advance L).variant = c.variant := rfl
@[simp] theorem advance_input (c : Codec) (L : Byte) : (c.advance L).input = c.input := rfl
@[simp] theorem advance_idx (c : Codec) (L : Byte) : (c.advance L).idx = c.idx + 1 := rfl
@[simp] theorem advance_length (c : Codec) (L : Byte) : (c.advance L).length = L := rfl
@[simp] theorem advance_bound (c : Codec) (L : Byte) : (c.advance L).bound = c.idx + 1 + L.toNat - 1 := rfl
@[simp] theorem advance_out (c : Codec) (L : Byte) : (c.advance L).out = c.out := rfl

@[simp] theorem copyChunk_variant (c : Codec) : (c.copyChunk).variant = c.variant := rfl
@[simp] theorem copyChunk_input (c : Codec) : (c.copyChunk).input = c.input := rfl
@[simp] theorem copyChunk_idx (c : Codec) : (c.copyChunk).idx = c.bound := rfl
@[simp] theorem copyChunk_length (c : Codec) : (c.copyChunk).length = c.length := rfl
@[simp] theorem copyChunk_bound (c : Codec) : (c.copyChunk).bound = c.bound := rfl
@[simp] theorem copyChunk_out (c : Codec) : (c.copyChunk).out = c.out ++ c.chunk := rfl

@[simp] theorem idle_input : Codec.idle.input = [] := rfl
@[simp] theorem idle_isOpen : Codec.idle.isOpen = false := rfl

/-! ## The state -/

section
variable {TS : Type}

@[simp] theorem reset_eq_initial : State.reset = State.initial := rfl
@[simp] theorem initial_cfg : (State.initial : State TS).cfg = ⟨0, .cobs⟩ := rfl
@[simp] theorem initial_runCfg : (State.initial : State TS).runCfg = none := rfl
@[simp] theorem initial_capacity : (State.initial : State TS).capacity = .unbounded := rfl
@[simp] theorem initial_acc : (State.initial : State TS).acc = AccState.reset := rfl
@[simp] theorem initial_codec : (State.initial : State TS).codec = Codec.idle := rfl
@[simp] theorem initial_inputs : (State.initial : State TS).inputs = [] := rfl
@[simp] theorem initial_out : (State.initial : State TS).out = none := rfl
@[simp] theorem initial_ret : (State.initial : State TS).ret = none := rfl
@[simp] theorem initial_emitted : (State.initial : State TS).emitted = [] := rfl

@[simp] theorem quiet_cfg (s : State TS) : (s.quiet).cfg = s.cfg := rfl
@[simp] theorem quiet_runCfg (s : State TS) : (s.quiet).runCfg = s.runCfg := rfl
@[simp] theorem quiet_capacity (s : State TS) : (s.quiet).capacity = s.capacity := rfl
@[simp] theorem quiet_acc (s : State TS) : (s.quiet).acc = s.acc := rfl
@[simp] theorem quiet_codec (s : State TS) : (s.quiet).codec = s.codec := rfl
@[simp] theorem quiet_inputs (s : State TS) : (s.quiet).inputs = s.inputs := rfl
@[simp] theorem quiet_out (s : State TS) : (s.quiet).out = none := rfl
@[simp] theorem quiet_ret (s : State TS) : (s.quiet).ret = none := rfl
@[simp] theorem quiet_emitted (s : State TS) : (s.quiet).emitted = s.emitted := rfl

@[simp] theorem accept_cfg (s : State TS) (r : AccState TS × Option (TimedFrame TS)) : (s.accept r).cfg = s.cfg := rfl
@[simp] theorem accept_runCfg (s : State TS) (r : AccState TS × Option (TimedFrame TS)) : (s.accept r).runCfg = s.runCfg := rfl
@[simp] theorem accept_capacity (s : State TS) (r : AccState TS × Option (TimedFrame TS)) : (s.accept r).capacity = s.capacity := rfl
@[simp] theorem accept_acc (s : State TS) (r : AccState TS × Option (TimedFrame TS)) : (s.accept r).acc = r.1 := rfl
@[simp] theorem accept_codec (s : State TS) (r : AccState TS × Option (TimedFrame TS)) : (s.accept r).codec = s.codec := rfl
@[simp] theorem accept_inputs (s : State TS) (r : AccState TS × Option (TimedFrame TS)) : (s.accept r).inputs = s.inputs := rfl
@[simp] theorem accept_out (s : State TS) (r : AccState TS × Option (TimedFrame TS)) : (s.accept r).out = r.2 := rfl
@[simp] theorem accept_ret (s : State TS) (r : AccState TS × Option (TimedFrame TS)) : (s.accept r).ret = none := rfl
@[simp] theorem accept_emitted (s : State TS) (r : AccState TS × Option (TimedFrame TS)) : (s.accept r).emitted = s.emitted ++ r.2.toList := rfl

@[simp] theorem overrunBuffer_cfg (s : State TS) (ts : TS) : (s.overrunBuffer ts).cfg = s.cfg := rfl
@[simp] theorem overrunBuffer_runCfg (s : State TS) (ts : TS) : (s.overrunBuffer ts).runCfg = s.runCfg := rfl
@[simp] theorem overrunBuffer_capacity (s : State TS) (ts : TS) : (s.overrunBuffer ts).capacity = s.capacity.setOverflow := rfl
@[simp] theorem overrunBuffer_acc (s : State TS) (ts : TS) : (s.overrunBuffer ts).acc = s.acc.latchStart ts := rfl
@[simp] theorem overrunBuffer_codec (s : State TS) (ts : TS) : (s.overrunBuffer ts).codec = s.codec := rfl
@[simp] theorem overrunBuffer_inputs (s : State TS) (ts : TS) : (s.overrunBuffer ts).inputs = s.inputs := rfl
@[simp] theorem overrunBuffer_out (s : State TS) (ts : TS) : (s.overrunBuffer ts).out = none := rfl
@[simp] theorem overrunBuffer_ret (s : State TS) (ts : TS) : (s.overrunBuffer ts).ret = none := rfl
@[simp] theorem overrunBuffer_emitted (s : State TS) (ts : TS) : (s.overrunBuffer ts).emitted = s.emitted := rfl

@[simp] theorem returning_cfg (s : State TS) (r : DecodeResult) : (s.returning r).cfg = s.cfg := rfl
@[simp] theorem returning_runCfg (s : State TS) (r : DecodeResult) : (s.returning r).runCfg = s.runCfg := rfl
@[simp] theorem returning_capacity (s : State TS) (r : DecodeResult) : (s.returning r).capacity = s.capacity := rfl
@[simp] theorem returning_acc (s : State TS) (r : DecodeResult) : (s.returning r).acc = s.acc := rfl
@[simp] theorem returning_codec (s : State TS) (r : DecodeResult) : (s.returning r).codec = s.codec := rfl
@[simp] theorem returning_inputs (s : State TS) (r : DecodeResult) : (s.returning r).inputs = s.inputs := rfl
@[simp] theorem returning_out (s : State TS) (r : DecodeResult) : (s.returning r).out = none := rfl
@[simp] theorem returning_ret (s : State TS) (r : DecodeResult) : (s.returning r).ret = some r := rfl
@[simp] theorem returning_emitted (s : State TS) (r : DecodeResult) : (s.returning r).emitted = s.emitted := rfl

@[simp] theorem afterMore_cfg (s : State TS) (c : Codec) : (s.afterBlock (.more c)).cfg = s.cfg := rfl
@[simp] theorem afterMore_runCfg (s : State TS) (c : Codec) : (s.afterBlock (.more c)).runCfg = s.runCfg := rfl
@[simp] theorem afterMore_capacity (s : State TS) (c : Codec) : (s.afterBlock (.more c)).capacity = s.capacity := rfl
@[simp] theorem afterMore_acc (s : State TS) (c : Codec) : (s.afterBlock (.more c)).acc = s.acc := rfl
@[simp] theorem afterMore_codec (s : State TS) (c : Codec) : (s.afterBlock (.more c)).codec = c := rfl
@[simp] theorem afterMore_inputs (s : State TS) (c : Codec) : (s.afterBlock (.more c)).inputs = s.inputs := rfl
@[simp] theorem afterMore_out (s : State TS) (c : Codec) : (s.afterBlock (.more c)).out = none := rfl
@[simp] theorem afterMore_ret (s : State TS) (c : Codec) : (s.afterBlock (.more c)).ret = none := rfl
@[simp] theorem afterMore_emitted (s : State TS) (c : Codec) : (s.afterBlock (.more c)).emitted = s.emitted := rfl

@[simp] theorem afterDone_cfg (s : State TS) (r : DecodeResult) : (s.afterBlock (.done r)).cfg = s.cfg := rfl
@[simp] theorem afterDone_runCfg (s : State TS) (r : DecodeResult) : (s.afterBlock (.done r)).runCfg = s.runCfg := rfl
@[simp] theorem afterDone_capacity (s : State TS) (r : DecodeResult) : (s.afterBlock (.done r)).capacity = s.capacity := rfl
@[simp] theorem afterDone_acc (s : State TS) (r : DecodeResult) : (s.afterBlock (.done r)).acc = s.acc := rfl
@[simp] theorem afterDone_codec (s : State TS) (r : DecodeResult) : (s.afterBlock (.done r)).codec = Codec.idle := rfl
@[simp] theorem afterDone_inputs (s : State TS) (r : DecodeResult) : (s.afterBlock (.done r)).inputs = s.inputs := rfl
@[simp] theorem afterDone_out (s : State TS) (r : DecodeResult) : (s.afterBlock (.done r)).out = none := rfl
@[simp] theorem afterDone_ret (s : State TS) (r : DecodeResult) : (s.afterBlock (.done r)).ret = some r := rfl
@[simp] theorem afterDone_emitted (s : State TS) (r : DecodeResult) : (s.afterBlock (.done r)).emitted = s.emitted := rfl

@[simp] theorem afterBlock_cfg (s : State TS) (x : CodecStep) : (s.afterBlock x).cfg = s.cfg := by cases x <;> rfl
@[simp] theorem afterBlock_runCfg (s : State TS) (x : CodecStep) : (s.afterBlock x).runCfg = s.runCfg := by cases x <;> rfl
@[simp] theorem afterBlock_capacity (s : State TS) (x : CodecStep) : (s.afterBlock x).capacity = s.capacity := by cases x <;> rfl
@[simp] theorem afterBlock_acc (s : State TS) (x : CodecStep) : (s.afterBlock x).acc = s.acc := by cases x <;> rfl
@[simp] theorem afterBlock_inputs (s : State TS) (x : CodecStep) : (s.afterBlock x).inputs = s.inputs := by cases x <;> rfl
@[simp] theorem afterBlock_emitted (s : State TS) (x : CodecStep) : (s.afterBlock x).emitted = s.emitted := by cases x <;> rfl
@[simp] theorem afterBlock_out (s : State TS) (x : CodecStep) : (s.afterBlock x).out = none := by cases x <;> rfl

@[simp] theorem deliver_cfg (s : State TS) (ev : Event TS) : (s.deliver ev).cfg = s.cfg := rfl
@[simp] theorem deliver_runCfg (s : State TS) (ev : Event TS) : (s.deliver ev).runCfg = none := rfl
@[simp] theorem deliver_capacity (s : State TS) (ev : Event TS) : (s.deliver ev).capacity = s.capacity := rfl
@[simp] theorem deliver_acc (s : State TS) (ev : Event TS) : (s.deliver ev).acc = s.acc := rfl
@[simp] theorem deliver_codec (s : State TS) (ev : Event TS) : (s.deliver ev).codec = Codec.idle := rfl
@[simp] theorem deliver_inputs (s : State TS) (ev : Event TS) : (s.deliver ev).inputs = .ports (portsOfEvent ev) :: s.inputs := rfl
@[simp] theorem deliver_out (s : State TS) (ev : Event TS) : (s.deliver ev).out = s.out := rfl
@[simp] theorem deliver_ret (s : State TS) (ev : Event TS) : (s.deliver ev).ret = s.ret := rfl
@[simp] theorem deliver_emitted (s : State TS) (ev : Event TS) : (s.deliver ev).emitted = s.emitted := rfl

@[simp] theorem configured_cfg (s : State TS) (cfg : Config) : (s.configured cfg).cfg = cfg := rfl
@[simp] theorem configured_runCfg (s : State TS) (cfg : Config) : (s.configured cfg).runCfg =
    if s.beforeFirstEvent ∨ cfg = s.runConfig then none else some s.runConfig := rfl
@[simp] theorem configured_capacity (s : State TS) (cfg : Config) : (s.configured cfg).capacity = s.capacity := rfl
@[simp] theorem configured_acc (s : State TS) (cfg : Config) : (s.configured cfg).acc = s.acc := rfl
@[simp] theorem configured_codec (s : State TS) (cfg : Config) : (s.configured cfg).codec = s.codec := rfl
@[simp] theorem configured_inputs (s : State TS) (cfg : Config) : (s.configured cfg).inputs = s.inputs := rfl
@[simp] theorem configured_out (s : State TS) (cfg : Config) : (s.configured cfg).out = none := rfl
@[simp] theorem configured_ret (s : State TS) (cfg : Config) : (s.configured cfg).ret = none := rfl
@[simp] theorem configured_emitted (s : State TS) (cfg : Config) : (s.configured cfg).emitted = s.emitted := rfl

@[simp] theorem cleared_cfg (s : State TS) : (s.cleared).cfg = s.cfg := rfl
@[simp] theorem cleared_runCfg (s : State TS) : (s.cleared).runCfg = none := rfl
@[simp] theorem cleared_capacity (s : State TS) : (s.cleared).capacity = s.capacity.clearOverflow := rfl
@[simp] theorem cleared_acc (s : State TS) : (s.cleared).acc = AccState.reset := rfl
@[simp] theorem cleared_codec (s : State TS) : (s.cleared).codec = s.codec := rfl
@[simp] theorem cleared_inputs (s : State TS) : (s.cleared).inputs = s.inputs := rfl
@[simp] theorem cleared_out (s : State TS) : (s.cleared).out = none := rfl
@[simp] theorem cleared_ret (s : State TS) : (s.cleared).ret = none := rfl
@[simp] theorem cleared_emitted (s : State TS) : (s.cleared).emitted = s.emitted := rfl

theorem cfgInv_of_none {s : State TS} (h : s.runCfg = none) : s.CfgInv := by simp [State.CfgInv, h]

/-- While no other configuration has been presented, the run's is the one on the ports. -/
@[simp] theorem runConfig_of_none {s : State TS} (h : s.runCfg = none) : s.runConfig = s.cfg := by simp [State.runConfig, h]

end

/-! ## The capacity -/

@[simp] theorem setOverflow_full (n : Nat) (c : Capacity) : c.setOverflow.full n = c.full n := by cases c <;> rfl
@[simp] theorem clearOverflow_full (n : Nat) (c : Capacity) : c.clearOverflow.full n = c.full n := by cases c <;> rfl
@[simp] theorem clearOverflow_blocked (c : Capacity) : c.clearOverflow.blocked = false := by cases c <;> rfl
@[simp] theorem setOverflow_holds (n : Nat) (c : Capacity) : c.setOverflow.holds n ↔ c.holds n := by cases c <;> rfl
@[simp] theorem clearOverflow_holds (n : Nat) (c : Capacity) : c.clearOverflow.holds n ↔ c.holds n := by cases c <;> rfl
@[simp] theorem setOverflow_size (c : Capacity) : c.setOverflow.size = c.size := by cases c <;> rfl
@[simp] theorem clearOverflow_size (c : Capacity) : c.clearOverflow.size = c.size := by cases c <;> rfl
@[simp] theorem unbounded_blocked : Capacity.unbounded.blocked = false := rfl
@[simp] theorem unbounded_full (n : Nat) : Capacity.unbounded.full n = false := rfl
@[simp] theorem unbounded_holds (n : Nat) : Capacity.unbounded.holds n := trivial

end Sys2Proof.Machine
end

