-- ==== Sys2Proof/Laws/Ops.lean ====
section
/-! SUPPORT. For each shared operation, what it can do. -/

namespace Sys2Proof.Machine

/-! ## The slice -/

theorem slice_length (s : List Byte) (a b : Nat) : (slice s a b).length = min b s.length - a := by
  simp [slice]

theorem mem_of_mem_slice {s : List Byte} {a b : Nat} {x : Byte} (h : x ∈ slice s a b) : x ∈ s :=
  List.mem_of_mem_take (List.mem_of_mem_drop h)

/-- R54: clamping the upper bound to the length changes no slice. -/
theorem slice_clamped (s : List Byte) (a b : Nat) : slice s a (min b s.length) = slice s a b := by
  rcases Nat.le_total b s.length with h | h
  · rw [Nat.min_eq_left h]
  · rw [Nat.min_eq_right h, slice, slice, List.take_of_length_le h, List.take_length]

/-- What is left of a sequence at `a` is its slice up to `b` and what is left at `b`. -/
theorem drop_eq_slice_append (s : List Byte) {a b : Nat} (h : a ≤ b) : s.drop a = slice s a b ++ s.drop b := by
  have hsplit := List.take_append_drop (b - a) (s.drop a)
  rw [List.drop_drop, show a + (b - a) = b by omega] at hsplit
  rw [slice, List.drop_take]
  exact hsplit.symm

/-! ## The loop body of the Codec (R125) -/

/-- The chunk of a length code: the claimed bytes that exist. -/
theorem advance_chunk (c : Codec) (L : Byte) : (c.advance L).chunk = slice c.input (c.idx + 1) (c.idx + 1 + L.toNat - 1) := rfl

/-- R114 to R123: the four ways a pass of the loop for a non-zero length code ends. -/
theorem block_cases (c : Codec) (L : Byte) :
    (0x00#8 ∈ slice c.input (c.idx + 1) (c.idx + L.toNat) ∧ c.block L = .done (.error .zeroByteInInput)) ∨
    (0x00#8 ∉ slice c.input (c.idx + 1) (c.idx + L.toNat) ∧ c.idx + L.toNat > c.input.length ∧
      c.block L = match c.variant with
        | .cobs => .done (.error .truncatedLengthCode)
        | .cobsr => .done (.message (c.out ++ slice c.input (c.idx + 1) (c.idx + L.toNat) ++ [L]))) ∨
    (0x00#8 ∉ slice c.input (c.idx + 1) (c.idx + L.toNat) ∧ c.idx + L.toNat < c.input.length ∧
      c.block L = .more { c with
        length := L, idx := c.idx + L.toNat, bound := c.idx + L.toNat,
        out := c.out ++ slice c.input (c.idx + 1) (c.idx + L.toNat) ++ (if L.toNat < 0xFF then [0x00#8] else []) }) ∨
    (0x00#8 ∉ slice c.input (c.idx + 1) (c.idx + L.toNat) ∧ c.idx + L.toNat = c.input.length ∧
      c.block L = .done (.message (c.out ++ slice c.input (c.idx + 1) (c.idx + L.toNat)))) := by
  have hb : c.idx + 1 + L.toNat - 1 = c.idx + L.toNat := by omega
  by_cases hz : 0x00#8 ∈ slice c.input (c.idx + 1) (c.idx + L.toNat)
  · exact .inl ⟨hz, by simp [Codec.block, advance_chunk, hb, hz, raiseError]⟩
  · refine .inr ?_
    have hblock : c.block L = (c.advance L).copyChunk.boundary := by
      simp [Codec.block, advance_chunk, hb, hz]
    rcases Nat.lt_trichotomy (c.idx + L.toNat) c.input.length with h | h | h
    · refine .inr (.inl ⟨hz, h, ?_⟩)
      have h' : ¬ c.idx + L.toNat > c.input.length := by omega
      rw [hblock]
      simp only [Codec.boundary, Codec.continue, copyChunk_idx, copyChunk_input, copyChunk_length, advance_bound,
        advance_input, advance_length, hb, h, h', if_true, if_false]
      split <;> simp [Codec.copyChunk, Codec.advance, Codec.chunk, hb]
    · refine .inr (.inr ⟨hz, h, ?_⟩)
      rw [hblock]
      simp [Codec.boundary, hb, h, advance_chunk]
    · refine .inl ⟨hz, h, ?_⟩
      rw [hblock]
      cases hv : c.variant <;>
        simp only [Codec.boundary, Codec.overrun, copyChunk_idx, copyChunk_input, copyChunk_variant, copyChunk_out,
          copyChunk_length, advance_bound, advance_input, advance_variant, advance_length, advance_out, advance_chunk, hb,
          h, hv, if_true, raiseError]

theorem body_zero (c : Codec) : c.body 0x00#8 = .done (.error .zeroByteInInput) := rfl

/-- R84, R125: a length code that is not zero runs the block with its own value. -/
theorem body_of_ne_zero (c : Codec) {L : Byte} (hL : L ≠ 0x00#8) : c.body L = c.block L := by
  unfold Codec.body
  cases h : lengthClass L with
  | zero => exact absurd (lengthClass_eq_zero.mp h) hL
  | max => rw [lengthClass_eq_max.mp h]
  | chunk => rfl

/-- R132: a pass that goes back to the fetch has moved the cursor by the length code and keeps it inside the input. -/
theorem body_more {c c' : Codec} {L : Byte} (h : c.body L = .more c') :
    L ≠ 0x00#8 ∧ c'.input = c.input ∧ c'.variant = c.variant ∧ c'.idx = c.idx + L.toNat ∧ c'.idx < c'.input.length := by
  by_cases hL : L = 0x00#8
  · subst hL; simp [body_zero] at h
  · rw [body_of_ne_zero c hL] at h
    rcases block_cases c L with ⟨-, e⟩ | ⟨-, -, e⟩ | ⟨-, hlt, e⟩ | ⟨-, -, e⟩
    · simp [e] at h
    · rw [e] at h; split at h <;> simp at h
    · rw [e] at h; obtain rfl := CodecStep.more.inj h; exact ⟨hL, rfl, rfl, rfl, hlt⟩
    · simp [e] at h

/-- R112: the fetch is defined exactly when the cursor is inside the input. -/
theorem fetch_eq_some {c : Codec} (h : c.idx < c.input.length) : c.fetch = some (c.input[c.idx]) := by
  simp [Codec.fetch, h]

/-- R112: where the fetch gives a byte, the cursor is inside the input. -/
theorem lt_of_fetch {c : Codec} {L : Byte} (h : c.fetch = some L) : c.idx < c.input.length :=
  (List.getElem?_eq_some_iff.mp h).1

/-- The input from the cursor on is the length code, its existing chunk bytes, and what follows them. -/
theorem drop_eq_block {c : Codec} {L : Byte} (hL : L ≠ 0x00#8) (h : c.fetch = some L) :
    c.input.drop c.idx =
      L :: slice c.input (c.idx + 1) (c.idx + L.toNat) ++ c.input.drop (c.idx + L.toNat) := by
  have hpos := one_le_toNat hL
  obtain ⟨hlt, he⟩ := List.getElem?_eq_some_iff.mp h
  rw [List.drop_eq_getElem_cons hlt, he, List.cons_append, ← drop_eq_slice_append _ (by omega)]

/-! ## The loop (R125, R132) -/

theorem loop_succ {c : Codec} {L : Byte} (fuel : Nat) (h : c.fetch = some L) :
    c.loop (fuel + 1) = match c.body L with
      | .done r => r
      | .more c' => c'.loop fuel := by
  cases hb : c.body L <;> simp only [Codec.loop, h, hb]

/-- R132: more passes than bytes that remain change nothing. -/
theorem loop_fuel_irrelevant (m fuel : Nat) (c : Codec) (hc : c.idx < c.input.length) (hm : c.input.length - c.idx ≤ m)
    (hf : c.input.length - c.idx ≤ fuel) : c.loop m = c.loop fuel := by
  induction m generalizing c fuel with
  | zero => omega
  | succ m ih =>
    obtain ⟨f, rfl⟩ : ∃ f, fuel = f + 1 := ⟨fuel - 1, by omega⟩
    rw [loop_succ m (fetch_eq_some hc), loop_succ f (fetch_eq_some hc)]
    cases hb : c.body c.input[c.idx] with
    | done r => rfl
    | more c' =>
      obtain ⟨hne, hin, -, hidx, hlt⟩ := body_more hb
      have := one_le_toNat hne
      exact ih f c' hlt (by rw [hin] at hlt ⊢; omega) (by rw [hin] at hlt ⊢; omega)

/-- What an invocation returns from a fetch: what its pass returns, or what it returns from the next fetch. -/
theorem finish_eq {c : Codec} {L : Byte} (h : c.fetch = some L) :
    c.finish = match c.body L with
      | .done r => r
      | .more c' => c'.finish := by
  have hlt := lt_of_fetch h
  obtain ⟨m, hm⟩ : ∃ m, c.input.length - c.idx = m + 1 := ⟨c.input.length - c.idx - 1, by omega⟩
  rw [Codec.finish, hm, loop_succ m h]
  cases hb : c.body L with
  | done r => rfl
  | more c' =>
    obtain ⟨hne, hin, -, hidx, hlt'⟩ := body_more hb
    have hpos := one_le_toNat hne
    exact loop_fuel_irrelevant _ _ _ hlt' (by rw [hin] at hlt' ⊢; omega) (le_refl _)

/-- The induction that goes with the loop: a property of every cursor inside the input follows if it holds at a cursor
whenever it holds at the one to which the pass goes back (R132). -/
theorem finish_induction {P : Codec → Prop}
    (h : ∀ c : Codec, c.idx < c.input.length → (∀ L c', c.fetch = some L → c.body L = .more c' → P c') → P c)
    (c : Codec) (hc : c.idx < c.input.length) : P c := by
  generalize hm : c.input.length - c.idx = m
  induction m using Nat.strongRecOn generalizing c with
  | ind m ih =>
    refine h c hc (fun L c' _ hb => ?_)
    obtain ⟨hne, hin, -, hidx, hlt⟩ := body_more hb
    have hpos := one_le_toNat hne
    exact ih (c'.input.length - c'.idx) (by rw [hin] at hlt ⊢; omega) c' hlt rfl

@[simp] theorem decode_nil (v : Variant) : decode v [] = .message [] := rfl

theorem decode_eq_loop (v : Variant) {input : List Byte} (h : input ≠ []) :
    decode v input = (Codec.start v input).loop input.length := by
  simp [decode, h]

/-! ## The Accumulator -/

/-- R155, R156: a stripped buffer holds bytes of the buffer. -/
theorem mem_of_mem_strip {TS : Type} {S : AccState TS} {k : Nat} {b : Byte} (h : b ∈ (S.strip k).received) :
    b ∈ S.received := by
  rw [strip_received] at h; split at h
  · exact List.mem_of_mem_drop h
  · exact h

/-- R196: what a step of the Accumulator can be. -/
theorem gated_cases {TS : Type} (s : State TS) (cls : EventClass) (ts : TS)
    (r : AccState TS × Option (TimedFrame TS)) :
    (s.capacity.blocked = true ∧ s.gated cls ts r = s.quiet) ∨
    (s.capacity.blocked = false ∧ cls = .data ∧ s.capacity.full s.acc.received.length = true ∧
      s.gated cls ts r = s.overrunBuffer ts) ∨
    (s.capacity.blocked = false ∧ ¬ (cls = .data ∧ s.capacity.full s.acc.received.length = true) ∧
      s.gated cls ts r = s.accept r) := by
  unfold State.gated
  by_cases hb : s.capacity.blocked = true
  · exact .inl ⟨hb, by simp [hb]⟩
  · have hb' : s.capacity.blocked = false := by simpa using hb
    by_cases hf : cls = .data ∧ s.capacity.full s.acc.received.length = true
    · exact .inr (.inl ⟨hb', hf.1, hf.2, by simp [hb', hf]⟩)
    · exact .inr (.inr ⟨hb', hf, by rw [if_neg hb, if_neg hf]⟩)

/-- R162 on a DELIM event. -/
theorem onByte_delim {TS : Type} (cfg : Config) (u : TS) (S : AccState TS) {ev : Event TS} (h : ev.byte = 0x00#8) :
    onByte cfg u S ev = (S.latchStart ev.ts).flush cfg u ev.ts := by
  simp [onByte, eventClass_eq_delim.mpr h]

/-- R162 on a DATA event. -/
theorem onByte_data {TS : Type} (cfg : Config) (u : TS) (S : AccState TS) {ev : Event TS} (h : ev.byte ≠ 0x00#8) :
    onByte cfg u S ev = ((S.latchStart ev.ts).append ev.byte ev.te, none) := by
  simp [onByte, eventClass_eq_data.mpr h]

/-- R157, R158: a frame is emitted exactly if the buffer is not empty. -/
theorem frame_eq_none {TS : Type} {S : AccState TS} {v : Variant} {u : TS} : S.frame v u = none ↔ S.received = [] := by
  unfold AccState.frame; split <;> simp_all [List.length_pos_iff]

/-- The host's setting of the configuration: its two outcomes (log 6). -/
theorem configure_cases {TS : Type} (p : BitVec 4) (v : Bool) (s : State TS) :
    (11 ≤ p.toNat ∧ configure p v s = .refused .reservedPrefix) ∨
    (∃ cfg, decodeConfig p v = .ok cfg ∧ configure p v s = .next (s.configured cfg)) := by
  unfold configure decodeConfig
  by_cases h : p.toNat < 11
  · exact .inr ⟨⟨⟨p.toNat, h⟩, decodeVariant v⟩, by simp [h], by simp [h]⟩
  · exact .inl ⟨by omega, by simp [h]⟩

/-- Presenting a configuration leaves the run's own alone, once the run has begun (D11). -/
theorem configured_runConfig {TS : Type} {s : State TS} (h : s.beforeFirstEvent = false) (cfg : Config) :
    (s.configured cfg).runConfig = s.runConfig := by
  unfold State.runConfig
  rw [configured_runCfg, configured_cfg, h]
  by_cases hc : cfg = s.runConfig
  · simp [hc, State.runConfig]
  · have hc' : ¬ cfg = s.runCfg.getD s.cfg := hc
    simp [State.runConfig, hc']

end Sys2Proof.Machine
end

