-- ==== Sys2Proof/Laws/PerInstr.lean ====
section
/-! SUPPORT. Statements about every instruction as syntax, one lemma per constructor. -/

namespace Sys2Proof.Laws.EncodesInItsSpace

/-- The encoder puts an instruction in the space in which the opcode table lists it (R96). -/
def Statement (i : Instr) : Prop := (encode i).space = i.space

theorem delim (ts te : Timestamp) : Statement (.delim ts te) := rfl
theorem data (b : Byte) (ts te : Timestamp) : Statement (.data b ts te) := rfl
theorem lenZero : Statement .lenZero := rfl
theorem lenMax : Statement .lenMax := rfl
theorem lenChunk (L : Byte) : Statement (.lenChunk L) := rfl
theorem decodeCobs (input : List Byte) : Statement (.decodeCobs input) := rfl
theorem decodeCobsr (input : List Byte) : Statement (.decodeCobsr input) := rfl
theorem onByte (ev : Event Timestamp) : Statement (.onByte ev) := rfl
theorem reset : Statement .reset := rfl

end Sys2Proof.Laws.EncodesInItsSpace
end

