-- ==== Sys2Proof/Laws/Rename.lean ====
section
/-! SUPPORT. Renaming timestamps: one lemma per field, and that each operation, its conditions and its decoder commute with
it. -/

namespace Sys2Proof.Machine

variable {TS TS' : Type} (f : TS → TS')

/-! ## The fields -/

@[simp] theorem accMap_received (S : AccState TS) : (accMap f S).received = S.received := rfl
@[simp] theorem accMap_frameStartTime (S : AccState TS) : (accMap f S).frameStartTime = S.frameStartTime.map f := rfl
@[simp] theorem accMap_frameEndTime (S : AccState TS) : (accMap f S).frameEndTime = S.frameEndTime.map f := rfl

@[simp] theorem eventMap_byte (ev : Event TS) : (eventMap f ev).byte = ev.byte := rfl
@[simp] theorem eventMap_ts (ev : Event TS) : (eventMap f ev).ts = f ev.ts := rfl
@[simp] theorem eventMap_te (ev : Event TS) : (eventMap f ev).te = f ev.te := rfl

@[simp] theorem stateMap_cfg (s : State TS) : (stateMap f s).cfg = s.cfg := rfl
@[simp] theorem stateMap_runCfg (s : State TS) : (stateMap f s).runCfg = s.runCfg := rfl
@[simp] theorem stateMap_capacity (s : State TS) : (stateMap f s).capacity = s.capacity := rfl
@[simp] theorem stateMap_acc (s : State TS) : (stateMap f s).acc = accMap f s.acc := rfl
@[simp] theorem stateMap_codec (s : State TS) : (stateMap f s).codec = s.codec := rfl
@[simp] theorem stateMap_inputs (s : State TS) : (stateMap f s).inputs = s.inputs.map (stimulusMap f) := rfl
@[simp] theorem stateMap_out (s : State TS) : (stateMap f s).out = s.out.map (frameMap f) := rfl
@[simp] theorem stateMap_ret (s : State TS) : (stateMap f s).ret = s.ret := rfl
@[simp] theorem stateMap_emitted (s : State TS) : (stateMap f s).emitted = s.emitted.map (frameMap f) := rfl

/-! ## The decoders -/

theorem decodeLengthCode_map (b : Byte) : instrMap f (decodeLengthCode b) = decodeLengthCode b := by
  unfold decodeLengthCode; split <;> rfl

theorem decodeCall_map (v : Bool) (input : List Byte) : instrMap f (decodeCall v input) = decodeCall v input := by
  unfold decodeCall; split <;> rfl

theorem delivers_map (p : InPorts TS) : (portsMap f p).delivers = p.delivers := rfl

theorem decodePorts_map (p : InPorts TS) : decodePorts (portsMap f p) = (decodePorts p).map (instrMap f) := by
  unfold decodePorts portsMap
  cases p.rst <;> cases p.inValid <;> rfl

/-! ## The Accumulator -/

theorem latchStart_map (S : AccState TS) (ts : TS) : (accMap f S).latchStart (f ts) = accMap f (S.latchStart ts) := by
  simp only [latchStart_eq, accMap]
  cases S.frameStartTime <;> rfl

theorem append_map (S : AccState TS) (b : Byte) (te : TS) : (accMap f S).append b (f te) = accMap f (S.append b te) := rfl

theorem strip_map (S : AccState TS) (k : Nat) : (accMap f S).strip k = accMap f (S.strip k) := by
  simp only [AccState.strip, accMap_received]; split <;> simp_all [accMap]

theorem primed_map (ts : TS) : AccState.primed (f ts) = accMap f (AccState.primed ts) := rfl

/-- The values for `value(unset)` need not correspond, if no timestamp that a frame needs is unset (R169). -/
theorem frame_map (S : AccState TS) (v : Variant) (u : TS) (u' : TS')
    (h : S.received ≠ [] → S.frameStartTime ≠ none ∧ S.frameEndTime ≠ none) :
    (accMap f S).frame v u' = (S.frame v u).map (frameMap f) := by
  unfold AccState.frame
  by_cases hr : S.received = []
  · simp [hr]
  · obtain ⟨hs, he⟩ := h hr
    obtain ⟨a, ha⟩ := Option.ne_none_iff_exists'.mp hs
    obtain ⟨b, hb⟩ := Option.ne_none_iff_exists'.mp he
    simp [List.length_pos_iff.mpr hr, ha, hb, frameMap]

/-! ## Leaving an instruction -/

theorem quiet_map (s : State TS) : (stateMap f s).quiet = stateMap f s.quiet := rfl

theorem accept_map (s : State TS) (r : AccState TS × Option (TimedFrame TS)) :
    (stateMap f s).accept (accMap f r.1, r.2.map (frameMap f)) = stateMap f (s.accept r) := by
  obtain ⟨S, F⟩ := r
  cases F <;> simp [State.accept, stateMap]

theorem overrunBuffer_map (s : State TS) (ts : TS) :
    (stateMap f s).overrunBuffer (f ts) = stateMap f (s.overrunBuffer ts) := by
  simp only [State.overrunBuffer, stateMap_acc, latchStart_map]; rfl

theorem returning_map (s : State TS) (r : DecodeResult) : (stateMap f s).returning r = stateMap f (s.returning r) := rfl

theorem afterBlock_map (s : State TS) (x : CodecStep) : (stateMap f s).afterBlock x = stateMap f (s.afterBlock x) := by
  cases x <;> rfl

@[simp] theorem beforeFirstEvent_map (s : State TS) : (stateMap f s).beforeFirstEvent = s.beforeFirstEvent := by
  simp [State.beforeFirstEvent, AccState.fstValid]

theorem runConfig_map (s : State TS) : (stateMap f s).runConfig = s.runConfig := rfl

theorem configured_map (s : State TS) (cfg : Config) : (stateMap f s).configured cfg = stateMap f (s.configured cfg) := by
  simp only [State.configured, beforeFirstEvent_map, runConfig_map]; rfl

theorem cleared_map (s : State TS) : (stateMap f s).cleared = stateMap f s.cleared := rfl

theorem gated_map (s : State TS) (cls : EventClass) (ts : TS) (r : AccState TS × Option (TimedFrame TS)) :
    (stateMap f s).gated cls (f ts) (accMap f r.1, r.2.map (frameMap f)) = stateMap f (s.gated cls ts r) := by
  simp only [State.gated, stateMap_capacity, stateMap_acc, accMap_received, accept_map, overrunBuffer_map, quiet_map]
  split
  · rfl
  · split <;> rfl

theorem configure_map (p : BitVec 4) (v : Bool) (s : State TS) :
    configure p v (stateMap f s) = outcomeMap f (configure p v s) := by
  unfold configure
  cases decodeConfig p v with
  | error e => rfl
  | ok cfg => simp only [configured_map, outcomeMap]

end Sys2Proof.Machine
end

