-- ==== Sys2Proof/Laws/Step.lean ====
section
/-! SUPPORT. What a step can do, said once. -/

namespace Sys2Proof.Machine

variable {TS : Type} [Inhabited TS]

/-! ## The host's names are the machine for every timestamp type, at its default type -/

theorem exec_eq_execAt : exec = execAt := by
  funext i s; cases i <;> rfl

/-- So what is shown of `stepAt`, `stepAt_cases` below all, holds of `step`. -/
theorem step_eq_stepAt : step = stepAt := by
  funext s; simp only [step, stepAt, exec_eq_execAt]

/-! ## What a step can be -/

/-- A length code at the cursor runs the loop body of R125 on the open invocation. -/
theorem execAt_decodeLengthCode (L : Byte) (s : State TS) :
    execAt (decodeLengthCode L) s = .next (s.afterBlock (s.codec.body L)) := by
  rw [decodeLengthCode_eq]
  split
  · next h => subst h; rfl
  · next h0 =>
    split
    · next h => subst h; rfl
    · rw [body_of_ne_zero _ h0]; rfl

/-- A direct call of the Codec returns its Decode Result. -/
theorem execAt_decodeCall (b : Bool) (input : List Byte) (s : State TS) :
    execAt (decodeCall b input) s = .next (s.returning (decode (decodeVariant b) input)) := by
  cases b <;> rfl

theorem exec_decodeLengthCode (L : Byte) (s : State) :
    exec (decodeLengthCode L) s = .next (s.afterBlock (s.codec.body L)) := by
  rw [exec_eq_execAt, execAt_decodeLengthCode]

theorem exec_decodeCall (b : Bool) (input : List Byte) (s : State) :
    exec (decodeCall b input) s = .next (s.returning (decode (decodeVariant b) input)) := by
  rw [exec_eq_execAt, execAt_decodeCall]

/-- What a step can be: the boundary is idle, the open invocation runs one length code, an Event is processed, or is refused
because the configuration has changed in mid-stream, RESET is taken, the Codec is called, the host presents a configuration,
or the cursor is not inside the input. -/
theorem stepAt_cases (s : State TS) :
    (s.codec.isOpen = false ∧ s.inputs = [] ∧ stepAt s = .next s.quiet) ∨
    (s.codec.isOpen = true ∧ ∃ L, s.codec.fetch = some L ∧ stepAt s = .next (s.afterBlock (s.codec.body L))) ∨
    (s.codec.isOpen = true ∧ s.codec.fetch = none ∧ stepAt s = .fault .fetchPastEnd) ∨
    (s.codec.isOpen = false ∧ ∃ p rest, s.inputs = .ports p :: rest ∧ p.rst = true ∧
      stepAt s = execReset { s with inputs := rest }) ∨
    (s.codec.isOpen = false ∧ ∃ p rest, s.inputs = .ports p :: rest ∧ p.rst = false ∧ p.inValid = true ∧
      s.runCfg = none ∧ stepAt s = execOnByte p.event { s with inputs := rest }) ∨
    (s.codec.isOpen = false ∧ ∃ p rest, s.inputs = .ports p :: rest ∧ p.rst = false ∧ p.inValid = true ∧
      s.runCfg ≠ none ∧ stepAt s = .refused .configChangedMidStream) ∨
    (s.codec.isOpen = false ∧ ∃ p rest, s.inputs = .ports p :: rest ∧ p.rst = false ∧ p.inValid = false ∧
      stepAt s = .next ({ s with inputs := rest } : State TS).quiet) ∨
    (s.codec.isOpen = false ∧ ∃ b input rest, s.inputs = .call b input :: rest ∧
      stepAt s = .next (({ s with inputs := rest } : State TS).returning (decode (decodeVariant b) input))) ∨
    (s.codec.isOpen = false ∧ ∃ p v rest, s.inputs = .configure p v :: rest ∧
      stepAt s = configure p v { s with inputs := rest }) := by
  by_cases ho : s.codec.isOpen = true
  · cases hf : s.codec.fetch with
    | none => exact .inr (.inr (.inl ⟨ho, rfl, by simp [stepAt, stepWith, ho, hf]⟩))
    | some L => exact .inr (.inl ⟨ho, L, rfl, by simp [stepAt, stepWith, ho, hf, execAt_decodeLengthCode]⟩)
  · have ho' : s.codec.isOpen = false := by simpa using ho
    cases hi : s.inputs with
    | nil => exact .inl ⟨ho', rfl, by simp [stepAt, stepWith, ho', hi]⟩
    | cons x rest =>
      have hs : stepAt s = presentWith execAt x { s with inputs := rest } := by simp [stepAt, stepWith, ho', hi]
      refine .inr (.inr (.inr ?_))
      cases x with
      | ports p =>
        rcases decodePorts_cases p with ⟨hr, hd⟩ | ⟨hr, hv, hd⟩ | ⟨hr, hv, hd⟩
        · exact .inl ⟨ho', p, rest, rfl, hr, by simp [hs, presentWith, InPorts.delivers, hr, hd, execAt]⟩
        · cases hc : s.runCfg with
          | none =>
            exact .inr (.inl ⟨ho', p, rest, rfl, hr, hv, rfl, by simp [hs, presentWith, hc, hd, execAt]⟩)
          | some c =>
            exact .inr (.inr (.inl ⟨ho', p, rest, rfl, hr, hv, by simp,
              by simp [hs, presentWith, InPorts.delivers, hr, hv, hc]⟩))
        · exact .inr (.inr (.inr (.inl ⟨ho', p, rest, rfl, hr, hv, by simp [hs, presentWith, InPorts.delivers, hv, hd]⟩)))
      | call b input =>
        exact .inr (.inr (.inr (.inr (.inl ⟨ho', b, input, rest, rfl, by simp only [hs, presentWith, execAt_decodeCall]⟩))))
      | configure p v =>
        exact .inr (.inr (.inr (.inr (.inr ⟨ho', p, v, rest, rfl, by simp only [hs, presentWith]⟩))))

/-! ## Runs: one step more is a step and then the run, or the stop of that step -/

theorem run_next {M : Host.Core} {s t : M.State} (m : Nat) (h : M.step s = .next t) : M.run (m + 1) s = M.run m t := by
  simp only [Host.Core.run, h]

theorem run_fault {M : Host.Core} {s : M.State} {r : M.Fault} (m : Nat) (h : M.step s = .fault r) :
    M.run (m + 1) s = .fault r := by
  simp only [Host.Core.run, h]

theorem run_refused {M : Host.Core} {s : M.State} {r : M.Refusal} (m : Nat) (h : M.step s = .refused r) :
    M.run (m + 1) s = .refused r := by
  simp only [Host.Core.run, h]

theorem run_succ {s t : State} (m : Nat) (h : step s = .next t) : core.run (m + 1) s = core.run m t := run_next (M := core) m h

end Sys2Proof.Machine
end

