-- ==== Sys2Proof/Tests/Slice0.lean ====
section
/-! SUPPORT. Tests. Expected results are the spec's own vectors (95_test_vectors.md), or its tables; the last part shows, for
every statement with hypotheses, a state and operands that meet them. -/

namespace Sys2Proof.Tests

open Sys2Proof.Machine

/-- The state with this configuration and this Accumulator State, as 95_test_vectors.md section 3 writes it. -/
def mk (k : Fin 11) (v : Variant) (received : List Byte) (start stop : Option Timestamp) : State :=
  { State.reset with cfg := ⟨k, v⟩, acc := ⟨received, start, stop⟩ }

/-- The next state, if there is one. -/
def after (o : Host.Outcome State Fault Refusal) : Option State :=
  match o with
  | .next s => some s
  | .fault _ => none
  | .refused _ => none

/-- The Accumulator State and the frame after one instruction. -/
def seen (i : Instr) (s : State) : Option (AccState Timestamp × Option (TimedFrame Timestamp)) :=
  (after (exec i s)).map (fun t => (t.acc, t.out))

/-! ## Well-formedness: an ill-formed term for each check -/

theorem test_data_byte_zero_is_ill_formed : ¬ (Instr.data 0x00#8 1 2).WellFormed := by decide
theorem test_chunk_code_zero_is_ill_formed : ¬ (Instr.lenChunk 0x00#8 : Instr).WellFormed := by decide
theorem test_chunk_code_max_is_ill_formed : ¬ (Instr.lenChunk 0xFF#8 : Instr).WellFormed := by decide

/-! ## Decoding: words written out from the opcode table -/

theorem test_decode_delim : decodeInstr (.event ⟨0b00000000#8, 5, 6⟩) = .ok (.delim 5 6) := rfl
theorem test_decode_data : decodeInstr (.event ⟨0b01111110#8, 5, 6⟩) = .ok (.data 0x7E#8 5 6) := rfl
theorem test_decode_lenZero : decodeInstr (.lengthCode 0b00000000#8 : Coded) = .ok .lenZero := rfl
theorem test_decode_lenMax : decodeInstr (.lengthCode 0b11111111#8 : Coded) = .ok .lenMax := rfl
theorem test_decode_lenChunk_low : decodeInstr (.lengthCode 0b00000001#8 : Coded) = .ok (.lenChunk 1) := rfl
theorem test_decode_lenChunk_high : decodeInstr (.lengthCode 0b11111110#8 : Coded) = .ok (.lenChunk 254) := rfl
theorem test_decode_onByte : decodeInstr (.ports ⟨false, true, 0x00#8, 5, 6⟩) = .ok (.onByte ⟨0x00#8, 5, 6⟩) := rfl
theorem test_decode_reset : decodeInstr (.ports ⟨true, true, 0x00#8, 5, 6⟩) = .ok .reset := rfl
theorem test_decode_idle : decodeInstr (.ports ⟨false, false, 0x41#8, 5, 6⟩) = .error .idle := rfl
theorem test_decode_call_cobs : decodeInstr (.call false [0x01#8] : Coded) = .ok (.decodeCobs [0x01#8]) := rfl
theorem test_decode_call_cobsr : decodeInstr (.call true [0x01#8] : Coded) = .ok (.decodeCobsr [0x01#8]) := rfl
theorem test_table_rows_cover_every_byte :
    ∀ b : Byte, firstMatch b eventRows = some (eventClass b) ∧ firstMatch b lengthRows = some (lengthClass b) := by decide
theorem test_config_largest_prefix : decodeConfig 10#4 true = .ok ⟨10, .cobsr⟩ := rfl
theorem test_config_reserved_prefix : decodeConfig 11#4 false = .error .reservedPrefix := rfl

/-! ## Where step fetches -/

theorem test_step_runs_the_delivered_word :
    after (step (State.reset.withFetchWord 8 0x61)) = after (exec (.data 0x61#8 0 0) State.reset) := by decide
theorem test_step_runs_a_delivered_delimiter :
    after (step (State.reset.withFetchWord 8 0x00)) = after (exec (.delim 0 0) State.reset) := by decide

/-! ## The Accumulator: 95_test_vectors.md section 3 -/

/-- A1. -/
theorem test_data_latches_start : seen (.data 0x61#8 10 18) (mk 0 .cobs [] none none)
    = some (⟨[0x61#8], some 10, some 18⟩, none) := by decide
/-- A3. -/
theorem test_data_keeps_start : seen (.data 0x62#8 20 28) (mk 0 .cobs [0x61#8] (some 10) (some 18))
    = some (⟨[0x61#8, 0x62#8], some 10, some 28⟩, none) := by decide
/-- A8. -/
theorem test_delim_strips : seen (.delim 40 48) (mk 2 .cobs [0x10#8, 0x20#8, 0x02#8, 0x41#8] (some 0) (some 38))
    = some (⟨[], some 40, none⟩, some ⟨.message [0x41#8], 0, 38⟩) := by decide
/-- A10. -/
theorem test_delim_short_frame : seen (.delim 10 18) (mk 2 .cobs [0x02#8] (some 0) (some 8))
    = some (⟨[], some 10, none⟩, some ⟨.error .truncatedLengthCode, 0, 8⟩) := by decide
/-- A9. -/
theorem test_onByte_absorbs_exactly_k : seen (.onByte ⟨0x00#8, 20, 28⟩) (mk 2 .cobs [0x10#8, 0x20#8] (some 0) (some 18))
    = some (⟨[], some 20, none⟩, none) := by decide
/-- A13: 9 bytes are fewer than `k = 10` and are decoded whole. -/
theorem test_onByte_nine_bytes_below_k :
    seen (.onByte ⟨0x00#8, 90, 98⟩) (mk 10 .cobs (List.replicate 9 0x01#8) (some 0) (some 88))
    = some (⟨[], some 90, none⟩, some ⟨.message (List.replicate 8 0x00#8), 0, 88⟩) := by decide
/-- A15. -/
theorem test_reset : seen .reset (mk 3 .cobsr [0x02#8, 0x41#8] (some 10) (some 28)) = some (⟨[], none, none⟩, none) := by
  decide
/-! ## The Codec: 95_test_vectors.md sections 1 and 2 -/

/-- V13: a zero in the chunk comes before the overrun. -/
theorem test_decodeCobs_zero_before_overrun :
    decode .cobs [0x05#8, 0x11#8, 0x00#8, 0x22#8] = .error .zeroByteInInput := by decide
/-- S3. -/
theorem test_decodeCobs_exact : decode .cobs [0x03#8, 0x61#8, 0x62#8] = .message [0x61#8, 0x62#8] := by decide
/-- S5. -/
theorem test_decodeCobsr_salvage : decode .cobsr [0x05#8, 0x61#8, 0x62#8] = .message [0x61#8, 0x62#8, 0x05#8] := by decide
/-- V22. -/
theorem test_decodeCobsr_second_block_short :
    decode .cobsr [0x02#8, 0x41#8, 0x03#8, 0x42#8] = .message [0x41#8, 0x00#8, 0x42#8, 0x03#8] := by decide

/-- The 254-byte sequence `c` of 95_test_vectors.md. -/
def ascending (n : Nat) : List Byte := (List.range n).map (fun i => BitVec.ofNat 8 (i + 1))

/-- V27: no zero is implied after LEN_MAX. -/
theorem test_lenMax_no_implied_zero :
    decode .cobs (0xFF#8 :: ascending 254 ++ [0x02#8, 0xFF#8]) = .message (ascending 254 ++ [0xFF#8]) := by decide +kernel
/-- V33: LEN_MAX short by one. -/
theorem test_lenMax_short :
    decode .cobsr (0xFF#8 :: ascending 253) = .message (ascending 253 ++ [0xFF#8]) := by decide +kernel
/-- V31: 0xFE still implies a zero. -/
theorem test_lenChunk_largest_implies_zero :
    decode .cobs (0xFE#8 :: ascending 253 ++ [0x01#8]) = .message (ascending 253 ++ [0x00#8]) := by decide +kernel

/-- A state in which the Codec is decoding `input` and its cursor is at `idx`. -/
def decoding (v : Variant) (input : List Byte) (idx : Nat) (out : List Byte) : State :=
  { mk 0 .cobs [0x61#8] (some 10) (some 18) with codec := { Codec.start v input with idx := idx, out := out } }

/-- V5, the first block of `[03 11 22 02 33]`: the chunk, the implied zero, and the cursor at 3. -/
theorem test_lenChunk_more :
    (after (exec (.lenChunk 0x03#8) (decoding .cobs [0x03#8, 0x11#8, 0x22#8, 0x02#8, 0x33#8] 0 []))).map
      (fun t => (t.codec.idx, t.codec.out, t.ret)) = some (3, [0x11#8, 0x22#8, 0x00#8], none) := by decide
/-- R113: the payload so far is dropped. -/
theorem test_lenZero_drops_the_payload :
    (after (exec .lenZero (decoding .cobsr [0x02#8, 0x11#8, 0x00#8, 0x01#8] 2 [0x11#8, 0x00#8]))).map
      (fun t => (t.codec, t.ret)) = some (Codec.idle, some (.error .zeroByteInInput)) := by decide

/-! ## What the hypotheses of the statements are met by -/

theorem witness_DecodeAndEncodeAgree :
    (Instr.data 0xFF#8 1 2).WellFormed ∧ (Instr.lenChunk 0x01#8 : Instr).WellFormed ∧ (Instr.lenChunk 0xFE#8 : Instr).WellFormed ∧
    decodeInstr (.ports resetPorts : Coded) = .ok .reset ∧ (∀ p, (Coded.ports resetPorts : Coded) = .ports p → p.rst = true → p = resetPorts) ∧
    decodeInstr (.event ⟨0x00#8, 1, 2⟩) = .ok (.delim 1 2) := by
  refine ⟨by decide, by decide, by decide, rfl, ?_, rfl⟩
  intro p h _
  exact (Coded.ports.inj h).symm

theorem witness_ConfigurationCodesAgree : (10#4).toNat ≤ 10 ∧ 11 ≤ (11#4).toNat := by decide

theorem witness_OutputPortsCarryTheFrame :
    ∃ F G H : TimedFrame Timestamp, (∃ p, F.result = .message p) ∧ G.result = .error .zeroByteInInput ∧
      H.result = .error .truncatedLengthCode :=
  ⟨⟨.message [], 0, 0⟩, ⟨.error .zeroByteInInput, 0, 0⟩, ⟨.error .truncatedLengthCode, 0, 0⟩, ⟨[], rfl⟩, rfl, rfl⟩

/-- The Accumulator in the middle of a frame, with `x` on the input boundary. -/
def presented (x : Stimulus) : State := { mk 0 .cobs [0x61#8] (some 10) (some 18) with inputs := [x] }

theorem witness_StepRunsTheDecodedInstruction :
    ((decoding .cobs [0x02#8, 0x41#8] 0 []).codec.isOpen = true ∧
      (decoding .cobs [0x02#8, 0x41#8] 0 []).codec.fetch = some 0x02#8 ∧
      decodeInstr (.lengthCode 0x02#8 : Coded) = .ok (.lenChunk 0x02#8)) ∧
    ((presented (.ports resetPorts)).codec.isOpen = false ∧ (presented (.ports resetPorts)).inputs = [.ports resetPorts] ∧
      decodeInstr (.ports resetPorts : Coded) = .ok .reset) ∧
    ((presented (.ports (portsOfEvent ⟨0x00#8, 3, 4⟩))).codec.isOpen = false ∧
      decodeInstr (.event ⟨0x00#8, 3, 4⟩) = .ok (.delim 3 4)) ∧
    ((presented (.call true [])).codec.isOpen = false ∧ decodeInstr (.call true [] : Coded) = .ok (.decodeCobsr [])) ∧
    decodeTableWord 8 255 = some (.data 0xFF#8 0 0) := by
  refine ⟨⟨rfl, rfl, rfl⟩, ⟨rfl, rfl, rfl⟩, ⟨rfl, rfl⟩, ⟨rfl, rfl⟩, rfl⟩

theorem witness_IdleStepChangesNothing :
    (presented (.ports ⟨false, false, 0x41#8, 1, 2⟩)).codec.isOpen = false ∧
    (presented (.ports ⟨false, false, 0x41#8, 1, 2⟩)).inputs = [.ports ⟨false, false, 0x41#8, 1, 2⟩] ∧
    (mk 0 .cobs [] none none).codec.isOpen = false ∧ (mk 0 .cobs [] none none).inputs = [] := ⟨rfl, rfl, rfl, rfl⟩

theorem witness_ResetWinsOverAnEvent :
    (presented (.ports ⟨true, true, 0x00#8, 1, 2⟩)).codec.isOpen = false ∧
    (presented (.ports ⟨true, true, 0x00#8, 1, 2⟩)).inputs = [.ports ⟨true, true, 0x00#8, 1, 2⟩] := ⟨rfl, rfl⟩

theorem witness_HostPresentsTheConfiguration :
    11 ≤ (11#4).toNat ∧
    (decodeConfig 10#4 true = .ok ⟨10, .cobsr⟩ ∧
      ({ State.reset with inputs := [.configure 10#4 true] } : State).acc.frameStartTime = none) ∧
    (decodeConfig 0#4 false = .ok (presented (.configure 0#4 false)).runConfig) ∧
    (decodeConfig 1#4 false = .ok ⟨1, .cobs⟩ ∧ ⟨1, .cobs⟩ ≠ (presented (.configure 1#4 false)).runConfig ∧
      (presented (.configure 1#4 false)).acc.frameStartTime ≠ none) := by
  refine ⟨by decide, ⟨rfl, rfl⟩, rfl, rfl, by decide, by decide⟩

/-- An Accumulator used under `k = 0`, whose ports now present `k = 1`, with `x` on the input boundary. -/
def switched (x : Stimulus) : State := { presented x with cfg := ⟨1, .cobs⟩, runCfg := some ⟨0, .cobs⟩ }

theorem switched_inv (x : Stimulus) : (switched x).Inv := by
  refine ⟨⟨by simp [switched, presented, mk], by simp [switched, presented, mk, AccState.fetValid],
    by simp [switched, presented, mk, AccState.fstValid]⟩, trivial, .inl rfl, ?_⟩
  rintro c hc
  cases hc
  exact ⟨by simp [switched], rfl⟩

theorem witness_EventUnderAnotherConfigurationIsRefused :
    (switched (.ports (portsOfEvent ⟨0x62#8, 20, 28⟩))).codec.isOpen = false ∧
    (switched (.ports (portsOfEvent ⟨0x62#8, 20, 28⟩))).runCfg ≠ none ∧
    (portsOfEvent ⟨0x62#8, 20, 28⟩ : InPorts).rst = false ∧ (portsOfEvent ⟨0x62#8, 20, 28⟩ : InPorts).inValid = true ∧
    (resetPorts : InPorts).rst = true := by decide

/-- R235 on a used instance: the new configuration, then RESET. -/
theorem test_configure_then_reset :
    (after (core.run 2 { presented (.configure 1#4 true) with inputs := [.configure 1#4 true, .ports resetPorts] })).map
      (fun t => (t.cfg, t.runCfg, t.acc)) = some (⟨1, .cobsr⟩, none, AccState.reset) := by decide

theorem witness_StartUpOrderBeginsANewRun :
    (presented (.ports resetPorts)).capacity = .unbounded ∧ (presented (.ports resetPorts)).codec = Codec.idle ∧
    decodeConfig 1#4 true = .ok ⟨1, .cobsr⟩ ∧ (resetPorts : InPorts).rst = true ∧
    ∃ s : State, s.capacity = .unbounded ∧ s.codec = Codec.idle ∧ s.acc.received ≠ [] ∧
      s.inputs = .configure 1#4 true :: .ports resetPorts :: [⟨0x41#8, 20, 28⟩].map (fun ev => .ports (portsOfEvent ev)) :=
  ⟨rfl, rfl, rfl, rfl, { presented (.ports resetPorts) with inputs := _ }, rfl, rfl, by decide, rfl⟩

theorem witness_DataEventIsAppended :
    (0x01#8 : Byte) ≠ 0x00#8 ∧ (mk 0 .cobs [] none none).capacity.blocked = false ∧
    (mk 0 .cobs [] none none).capacity.full (mk 0 .cobs [] none none).acc.received.length = false := by decide

theorem witness_DelimEmitsTheDecodedFrame :
    (mk 2 .cobs [0x10#8, 0x20#8, 0x01#8] (some 0) (some 28)).capacity.blocked = false ∧
    (mk 2 .cobs [0x10#8, 0x20#8, 0x01#8] (some 0) (some 28)).acc.frameEndTime = some 28 ∧
    (if [0x10#8, 0x20#8, 0x01#8].length ≥ (2 : Fin 11).val then [0x10#8, 0x20#8, 0x01#8].drop (2 : Fin 11).val
      else [0x10#8, 0x20#8, 0x01#8]) ≠ [] := by decide

theorem witness_ShortFrameIsDecodedWhole :
    ((mk 10 .cobs (List.replicate 9 0x01#8) (some 0) (some 88)).acc.frameEndTime = some 88 ∧
      (List.replicate 9 0x01#8).length < (10 : Fin 11).val) ∧
    ((mk 2 .cobs [0x02#8] (some 0) (some 8)).acc.frameEndTime = some 8 ∧ 1 ≤ [0x02#8].length ∧
      [0x02#8].length < (2 : Fin 11).val) ∧
    (mk 1 .cobs [0x02#8] (some 0) (some 8)).acc.received.length = (1 : Fin 11).val ∧
    (mk 10 .cobs (List.replicate 9 0x01#8) (some 0) (some 88)).capacity.blocked = false ∧
    (mk 2 .cobs [0x02#8] (some 0) (some 8)).capacity.blocked = false ∧
    (mk 1 .cobs [0x02#8] (some 0) (some 8)).capacity.blocked = false := by decide

theorem witness_EmptyFrameIsAbsorbed :
    (mk 2 .cobs [] none none).acc.received = [] ∧
    (mk 10 .cobs (List.replicate 10 0x01#8) (some 0) (some 98)).acc.received.length = (10 : Fin 11).val ∧
    (mk 2 .cobs [] none none).capacity.blocked = false ∧
    (mk 10 .cobs (List.replicate 10 0x01#8) (some 0) (some 98)).capacity.blocked = false := by decide

theorem witness_EveryDelimPrimesTheNextFrame : (mk 0 .cobs [0x05#8] (some 0) (some 8)).capacity.blocked = false := rfl

theorem witness_OnByteIsTheNormativeAssembly :
    (mk 0 .cobs [0x05#8] (some 0) (some 8)).capacity = .unbounded ∧
    ((mk 0 .cobs [0x05#8] (some 0) (some 8)).acc.received ≠ [] →
      (mk 0 .cobs [0x05#8] (some 0) (some 8)).acc.frameEndTime ≠ none) := by decide

theorem witness_EmptyPayloadIsEmitted :
    (mk 2 .cobs [0x10#8, 0x20#8, 0x01#8] (some 0) (some 28)).capacity.blocked = false ∧
    (mk 2 .cobs [0x10#8, 0x20#8, 0x01#8] (some 0) (some 28)).acc.received.drop (2 : Fin 11).val = [0x01#8] ∧
    (mk 2 .cobs [0x10#8, 0x20#8, 0x01#8] (some 0) (some 28)).acc.received.length ≥ (2 : Fin 11).val ∧
    (mk 2 .cobs [0x10#8, 0x20#8, 0x01#8] (some 0) (some 28)).acc.frameEndTime = some 28 := by decide

/-- A state with a buffered byte meets the invariant, and a DELIM event then emits a frame. -/
theorem witness_Inv : (mk 0 .cobsr [0x05#8] (some 0) (some 8)).Inv :=
  ⟨⟨by decide, by decide, by decide⟩, trivial, .inl rfl, cfgInv_of_none rfl⟩

theorem witness_AccumulatorNeverReportsAZeroByte :
    (mk 0 .cobsr [0x05#8] (some 0) (some 8)).acc.Inv ∧
    seen (.onByte ⟨0x00#8, 10, 18⟩) (mk 0 .cobsr [0x05#8] (some 0) (some 8))
      = some (⟨[], some 10, none⟩, some ⟨.message [0x05#8], 0, 8⟩) := ⟨witness_Inv.1, by decide⟩

theorem witness_FullBufferSetsOverflow :
    (0x41#8 : Byte) ≠ 0x00#8 ∧
    ({ mk 0 .cobs [0x61#8] (some 10) (some 18) with capacity := .finite 1 false } : State).capacity = .finite 1 false ∧
    ({ mk 0 .cobs [0x61#8] (some 10) (some 18) with capacity := .finite 1 false } : State).acc.received.length = 1 ∧
    ({ mk 0 .cobs [] none none with capacity := .finite 0 false } : State).capacity = .finite 0 false ∧
    ({ mk 0 .cobs [] none none with capacity := .finite 0 false } : State).acc.received.length = 0 := by decide

theorem witness_OverflowIsStickyUntilReset :
    ({ mk 0 .cobs [0x61#8] (some 10) (some 18) with capacity := .finite 1 true } : State).capacity = .finite 1 true := rfl

theorem witness_LengthCodeZeroIsAnError : (Codec.start .cobs [0x00#8]).fetch = some 0x00#8 := rfl

/-- One input for each clause, decoded from its first byte: a zero in the chunk, more, exact and overrun. -/
theorem witness_LengthCodeChunkEffect :
    (Instr.lenChunk 0x02#8 : Instr).WellFormed ∧
    (∀ v input, (decoding v input 0 []).codec.idx = 0 ∧ (decoding v input 0 []).codec.input = input) ∧
    (0 < [0x02#8, 0x00#8].length ∧ 0x00#8 ∈ slice [0x02#8, 0x00#8] (0 + 1) (0 + (0x02#8).toNat)) ∧
    (0x00#8 ∉ slice [0x02#8, 0x41#8, 0x01#8] (0 + 1) (0 + (0x02#8).toNat) ∧
      0 + (0x02#8).toNat < [0x02#8, 0x41#8, 0x01#8].length) ∧
    (0x00#8 ∉ slice [0x02#8, 0x41#8] (0 + 1) (0 + (0x02#8).toNat) ∧ 0 + (0x02#8).toNat = [0x02#8, 0x41#8].length) ∧
    (0 < [0x02#8].length ∧ 0x00#8 ∉ slice [0x02#8] (0 + 1) (0 + (0x02#8).toNat) ∧
      0 + (0x02#8).toNat > [0x02#8].length) :=
  ⟨by decide, fun _ _ => ⟨rfl, rfl⟩, by decide, by decide, by decide, by decide⟩

/-- One input for each clause, decoded from its first byte. -/
theorem witness_LengthCodeMaxEffect :
    (0 < [0xFF#8, 0x00#8].length ∧ 0x00#8 ∈ slice [0xFF#8, 0x00#8] (0 + 1) (0 + 255)) ∧
    (0x00#8 ∉ slice (0xFF#8 :: ascending 254 ++ [0x01#8]) (0 + 1) (0 + 255) ∧
      0 + 255 < (0xFF#8 :: ascending 254 ++ [0x01#8]).length) ∧
    (0x00#8 ∉ slice (0xFF#8 :: ascending 254) (0 + 1) (0 + 255) ∧ 0 + 255 = (0xFF#8 :: ascending 254).length) ∧
    (0 < (0xFF#8 :: ascending 253).length ∧ 0x00#8 ∉ slice (0xFF#8 :: ascending 253) (0 + 1) (0 + 255) ∧
      0 + 255 > (0xFF#8 :: ascending 253).length) ∧
    ((ascending 254).length = 254 ∧ 0x00#8 ∉ ascending 254) := by decide +kernel

theorem witness_DecodeIsTheNormativeLoop :
    (Codec.start .cobs [0x01#8]).fetch = some 0x01#8 ∧ [0x01#8] ≠ ([] : List Byte) := by decide

theorem witness_VariantsDifferOnlyOnOverrun :
    ((0x02#8 : Byte) ≠ 0x00#8 ∧ 0x00#8 ∉ slice [0x02#8] (0 + 1) (0 + (0x02#8).toNat) ∧ 0 + (0x02#8).toNat > [0x02#8].length) ∧
    (0 + (0x02#8).toNat ≤ [0x02#8, 0x41#8].length) ∧ 0x00#8 ∈ slice [0x03#8, 0x00#8] (0 + 1) (0 + (0x03#8).toNat) := by decide

theorem witness_CursorMovesForwardInsideTheInput :
    ∃ c', (Codec.start .cobs [0x01#8, 0x01#8]).body 0x01#8 = .more c' ∧
      (Codec.start .cobs [0x01#8, 0x01#8]).idx < (Codec.start .cobs [0x01#8, 0x01#8]).input.length :=
  ⟨_, rfl, by decide⟩

theorem witness_WhichBuffersDecode :
    (0x00#8 ∉ [0x02#8, 0x41#8] ∧ tiles [0x02#8, 0x41#8] = true ∧ decode .cobs [0x02#8, 0x41#8] = .message [0x41#8]) ∧
    (0x00#8 ∉ [0x02#8] ∧ tiles [0x02#8] = false) := by decide

theorem witness_PayloadIsNoLongerThanItsBuffer :
    decode .cobsr [0x02#8] = .message [0x02#8] ∧ decode .cobs [0x01#8] = .message [] ∧ [0x01#8] ≠ ([] : List Byte) := by decide

theorem witness_SteppingAnInvocationComputesDecode :
    [0x02#8, 0x41#8, 0x03#8] ≠ ([] : List Byte) ∧
    (decoding .cobsr [0x02#8, 0x41#8, 0x03#8] 0 []).codec = Codec.start .cobsr [0x02#8, 0x41#8, 0x03#8] := by decide

theorem witness_ResetRestoresTheResetState :
    (mk 0 .cobs [0x05#8] (some 0) (some 8)).capacity = .unbounded ∧
    ({ State.reset with capacity := .finite 4 true } : State).capacity = .finite 4 true := ⟨rfl, rfl⟩

/-- An invariant state with a DELIM event on its boundary, whose step emits a frame. -/
theorem witness_EveryStepKeepsTheInvariant :
    (presented (.ports (portsOfEvent ⟨0x00#8, 20, 28⟩))).Inv ∧
    ∃ t, step (presented (.ports (portsOfEvent ⟨0x00#8, 20, 28⟩))) = .next t ∧ t.out ≠ none ∧
      t.emitted ≠ (presented (.ports (portsOfEvent ⟨0x00#8, 20, 28⟩))).emitted :=
  ⟨⟨⟨by decide, by decide, by decide⟩, trivial, .inl rfl, cfgInv_of_none rfl⟩, _, rfl, by decide, by decide⟩

theorem witness_StepStopsOnlyOnConfiguration :
    (presented (.configure 11#4 true)).Inv ∧ step (presented (.configure 11#4 true)) = .refused .reservedPrefix ∧
    (switched (.ports (portsOfEvent ⟨0x62#8, 20, 28⟩))).Inv ∧
    step (switched (.ports (portsOfEvent ⟨0x62#8, 20, 28⟩))) = .refused .configChangedMidStream :=
  ⟨⟨⟨by decide, by decide, by decide⟩, trivial, .inl rfl, cfgInv_of_none rfl⟩, rfl, switched_inv _, rfl⟩

theorem witness_OnlyTheHostChangesTheConfiguration :
    ∃ t, step { State.reset with inputs := [.configure 7#4 true] } = .next t ∧ t.cfg ≠ State.reset.cfg :=
  ⟨_, rfl, by decide⟩

/-- The three cases: a change after an Event, RESET with the changed value, and an Event under the run's own. -/
theorem witness_OneConfigurationPerRun :
    ((presented (.configure 1#4 true)).Inv ∧ ∃ t, step (presented (.configure 1#4 true)) = .next t ∧
      t.cfg ≠ t.runConfig) ∧
    ((switched (.ports resetPorts)).Inv ∧ ∃ t, step (switched (.ports resetPorts)) = .next t ∧
      t.runConfig ≠ (switched (.ports resetPorts)).runConfig) ∧
    (presented (.ports (portsOfEvent ⟨0x62#8, 20, 28⟩))).Inv :=
  ⟨⟨⟨⟨by decide, by decide, by decide⟩, trivial, .inl rfl, cfgInv_of_none rfl⟩, _, rfl, by decide⟩,
    ⟨switched_inv _, _, rfl, by decide⟩, ⟨by decide, by decide, by decide⟩, trivial, .inl rfl, cfgInv_of_none rfl⟩

theorem witness_FramesComeOnlyFromDelimiters :
    ∃ t, step (presented (.ports (portsOfEvent ⟨0x00#8, 20, 28⟩))) = .next t ∧ t.out ≠ none := ⟨_, rfl, by decide⟩

theorem witness_ReceivedIsOnlyAppendedToOrCleared :
    ∃ t, step (presented (.ports (portsOfEvent ⟨0x62#8, 20, 28⟩))) = .next t ∧ t.acc.received = [0x61#8, 0x62#8] :=
  ⟨_, rfl, by decide⟩

theorem witness_ReceivedIsClearedOnlyByDelimOrReset :
    (presented (.ports resetPorts)).acc.received ≠ [] ∧
    (∃ t, step (presented (.ports resetPorts)) = .next t ∧ t.acc.received = []) ∧
    (∃ t, step (presented (.ports (portsOfEvent ⟨0x00#8, 20, 28⟩))) = .next t ∧ t.acc.received = []) :=
  ⟨by decide, ⟨_, rfl, rfl⟩, ⟨_, rfl, rfl⟩⟩

/-- A state over timestamps of two bits with a buffered byte and a DELIM event on its boundary. -/
def narrow : State (TimestampBits 2) :=
  { State.initial with
    acc := ⟨[0x05#8], some 0, some 3⟩, inputs := [.ports (portsOfEvent ⟨0x00#8, 1, 2⟩)], cfg := ⟨0, .cobsr⟩ }

theorem witness_RenamingTimestampsCommutesWithTheMachine :
    narrow.acc.Inv ∧ ∃ t, stepAt narrow = .next t ∧ t.out = some ⟨.message [0x05#8], 0, 3⟩ :=
  ⟨⟨by decide, by decide, by decide⟩, _, rfl, by decide⟩

theorem witness_EveryTimestampTypeRenamesTheHostMachine : narrow.Inv :=
  ⟨witness_RenamingTimestampsCommutesWithTheMachine.1, trivial, .inl rfl, cfgInv_of_none rfl⟩

theorem witness_StartTimeStaysSetUntilReset :
    (presented (.ports resetPorts)).acc.frameStartTime ≠ none ∧ ∃ t, step (presented (.ports resetPorts)) = .next t :=
  ⟨by decide, _, rfl⟩

/-- The Accumulator in the middle of a frame, with a DELIM and a DATA event on the input boundary. -/
def running : State :=
  { mk 0 .cobsr [0x05#8] (some 0) (some 8) with
    inputs := [⟨0x00#8, 10, 18⟩, ⟨0x41#8, 20, 28⟩].map (fun ev => .ports (portsOfEvent ev)) }

theorem witness_RunIsTheFoldOfOnByte :
    running.Inv ∧ running.capacity = .unbounded ∧ running.codec = Codec.idle ∧ running.runCfg = none ∧
    running.inputs = [⟨0x00#8, 10, 18⟩, ⟨0x41#8, 20, 28⟩].map (fun ev => .ports (portsOfEvent ev)) :=
  ⟨⟨⟨by decide, by decide, by decide⟩, trivial, .inl rfl, cfgInv_of_none rfl⟩, rfl, rfl, rfl, rfl⟩

theorem witness_FrameTimesComeFromTheseEvents :
    (∀ ev ∈ [(⟨0x7E#8, 10, 18⟩ : Event Nat)], ev.byte ≠ 0x00#8) ∧ (⟨0x01#8, 20, 28⟩ : Event Nat).byte ≠ 0x00#8 ∧
    (⟨0x00#8, 30, 38⟩ : Event Nat).byte = 0x00#8 ∧ [(⟨0x7E#8, 10, 18⟩ : Event Nat)].length + 1 ≠ (1 : Fin 11).val := by decide

theorem witness_OrderedEventsGiveOrderedFrames :
    (∀ ev ∈ [(⟨0x02#8, 0, 8⟩ : Event Timestamp), ⟨0x00#8, 10, 18⟩], ev.ts ≤ ev.te) ∧
    [(⟨0x02#8, 0, 8⟩ : Event Timestamp), ⟨0x00#8, 10, 18⟩].Pairwise (fun a b => a.ts ≤ b.te) ∧
    (runEvents ⟨0, .cobs⟩ 99 AccState.reset [(⟨0x02#8, 0, 8⟩ : Event Timestamp), ⟨0x00#8, 10, 18⟩]).2 ≠ [] := by decide

theorem witness_FramedPayloadIsReceived :
    (AccState.reset : AccState Nat).received = [] ∧ [0x7E#8].length = (1 : Fin 11).val ∧ (0x00#8 : Byte) ∉ [0x7E#8] ∧
    [(⟨0x7E#8, 0, 8⟩ : Event Nat), ⟨0x02#8, 10, 18⟩, ⟨0x41#8, 20, 28⟩, ⟨0x00#8, 30, 38⟩].map Event.byte
      = [0x7E#8] ++ encCobs [0x41#8] ++ [0x00#8] := by decide

end Sys2Proof.Tests
end

section
/-! PROOFS. Formats (30_encoding.md): the rows of the byte spaces, and the classes of Events. -/

namespace Sys2Proof

/-! ## The rows of a byte space (R96) -/

/-- A row with a full mask takes exactly its own pattern. -/
theorem firstMatch_cons_fullMask {α : Type} (b p : Byte) (c : α) (rows : List (ByteRow α)) :
    firstMatch b (⟨p, 0xFF#8, c⟩ :: rows) = if b = p then some c else firstMatch b rows := by
  have hmask : b &&& 0xFF#8 = b := BitVec.and_allOnes
  simp only [firstMatch, hmask]

/-- A row with mask and pattern 0 takes every byte that the rows before it left. -/
theorem firstMatch_cons_zeroMask {α : Type} (b : Byte) (c : α) (rows : List (ByteRow α)) :
    firstMatch b (⟨0x00#8, 0x00#8, c⟩ :: rows) = some c := by
  have hmask : b &&& 0x00#8 = 0x00#8 := BitVec.and_zero
  simp only [firstMatch, hmask, if_true]

/-- R81: the rows of the event space, tried in the order of priority, give the class of an Event. -/
theorem firstMatch_eventRows (b : Byte) : firstMatch b eventRows = some (eventClass b) := by
  rw [eventRows, firstMatch_cons_fullMask, firstMatch_cons_zeroMask, eventClass, apply_ite some]

/-! ## The classes of Events (R81) -/

/-- Settles O1: the decoder of the event space splits on the byte alone, and the two rows, a full mask and then a
catch-all, make the same split. -/
theorem eventIsClassedByItsByteAlone : Obligations.EventIsClassedByItsByteAlone := by
  intro TS ev
  constructor
  · rw [decodeInstr, decodeEvent_eq]
  · rw [firstMatch_eventRows, eventClass]

end Sys2Proof
end

section
/-! PROOFS. The loop body of the Codec (40_codec.md): an equation for each way a block ends, the loop over a block that is
written out in the input, and the statements about single passes. -/

namespace Sys2Proof.Machine

/-! ## How a block ends (R114 to R123): `block_cases`, one equation per case -/

/-- R119, R120: what an invocation returns from a pass that overruns, once the existing chunk bytes are in `out`. -/
def overrunResult : Variant → List Byte → Byte → DecodeResult
  | .cobs, _, _ => .error .truncatedLengthCode
  | .cobsr, out, L => .message (out ++ [L])

/-- R116, R117, R121, R122: the working values at the next fetch, after a block that more bytes follow. -/
def Codec.nextFetch (c : Codec) (L : Byte) : Codec :=
  { c with
    length := L, idx := c.idx + L.toNat, bound := c.idx + L.toNat,
    out := c.out ++ slice c.input (c.idx + 1) (c.idx + L.toNat) ++ (if L.toNat < 0xFF then [0x00#8] else []) }

section
variable {c : Codec} {L : Byte}

theorem block_of_zero_mem_chunk (hz : 0x00#8 ∈ slice c.input (c.idx + 1) (c.idx + L.toNat)) :
    c.block L = .done (.error .zeroByteInInput) := by
  obtain ⟨-, e⟩ | ⟨hn, -⟩ | ⟨hn, -⟩ | ⟨hn, -⟩ := block_cases c L
  exacts [e, absurd hz hn, absurd hz hn, absurd hz hn]

theorem block_of_overrun (hz : 0x00#8 ∉ slice c.input (c.idx + 1) (c.idx + L.toNat))
    (h : c.idx + L.toNat > c.input.length) :
    c.block L =
      .done (overrunResult c.variant (c.out ++ slice c.input (c.idx + 1) (c.idx + L.toNat)) L) := by
  obtain ⟨hm, -⟩ | ⟨-, -, e⟩ | ⟨-, hlt, -⟩ | ⟨-, heq, -⟩ := block_cases c L
  · exact absurd hm hz
  · rw [e]; cases c.variant <;> rfl
  · omega
  · omega

theorem block_of_more (hz : 0x00#8 ∉ slice c.input (c.idx + 1) (c.idx + L.toNat))
    (h : c.idx + L.toNat < c.input.length) : c.block L = .more (c.nextFetch L) := by
  obtain ⟨hm, -⟩ | ⟨-, hgt, -⟩ | ⟨-, -, e⟩ | ⟨-, heq, -⟩ := block_cases c L
  · exact absurd hm hz
  · omega
  · exact e
  · omega

theorem block_of_exact (hz : 0x00#8 ∉ slice c.input (c.idx + 1) (c.idx + L.toNat))
    (h : c.idx + L.toNat = c.input.length) :
    c.block L = .done (.message (c.out ++ slice c.input (c.idx + 1) (c.idx + L.toNat))) := by
  obtain ⟨hm, -⟩ | ⟨-, hgt, -⟩ | ⟨-, hlt, -⟩ | ⟨-, -, e⟩ := block_cases c L
  · exact absurd hm hz
  · omega
  · omega
  · exact e

end

/-! ## The length codes as instructions -/

theorem exec_lenMax (s : State) : exec .lenMax s = .next (s.afterBlock (s.codec.block 0xFF#8)) := rfl

theorem exec_lenChunk (L : Byte) (s : State) :
    exec (.lenChunk L) s = .next (s.afterBlock (s.codec.block L)) := rfl

/-- R115: a chunk that the input holds whole has the `m - 1` bytes that its length code `m` claims. -/
theorem chunk_length_of_le {s : List Byte} {p m : Nat} (h : p + m ≤ s.length) :
    (slice s (p + 1) (p + m)).length = m - 1 := by
  rw [slice_length]; omega

/-- R115: of a chunk that overruns the bytes after the length code exist. -/
theorem chunk_length_of_gt {s : List Byte} {p m : Nat} (h : p + m > s.length) :
    (slice s (p + 1) (p + m)).length = s.length - p - 1 := by
  rw [slice_length]; omega

/-- Settles O24: the four ways a block ends, for a length code below 0xFF, which therefore implies a zero. -/
theorem lengthCodeChunkEffect : Obligations.LengthCodeChunkEffect := by
  intro s L hwf _
  have hlt255 : L.toNat < 0xFF := by
    have hne : L ≠ 0xFF#8 := by
      rintro rfl
      exact absurd hwf (by decide)
    bv_omega
  refine ⟨fun hz => ?_, fun hz => ⟨fun h => ⟨chunk_length_of_le h.le, ?_⟩, fun h => ⟨chunk_length_of_le h.le, ?_⟩,
    fun h => ⟨chunk_length_of_gt h, ?_⟩⟩, by decide⟩
  · rw [exec_lenChunk, block_of_zero_mem_chunk hz]; rfl
  · rw [exec_lenChunk, block_of_more hz h, Codec.nextFetch, if_pos hlt255]; rfl
  · rw [exec_lenChunk, block_of_exact hz h]; rfl
  · rw [exec_lenChunk, block_of_overrun hz h]
    cases s.codec.variant <;> rfl

/-! ## The loop over a block that is written out in the input -/

/-- R14: the slice between two lengths is what stands between them. -/
theorem slice_append_append (pre mid post : List Byte) :
    slice (pre ++ mid ++ post) pre.length (pre.length + mid.length) = mid := by
  rw [slice, ← List.length_append, List.take_left, List.drop_left]

section
variable {c : Codec} {L : Byte} {pre chunk post : List Byte}

theorem fetch_of_input_eq (hin : c.input = pre ++ L :: chunk ++ post) (hidx : c.idx = pre.length) :
    c.fetch = some L := by
  simp [Codec.fetch, hin, hidx]

theorem slice_of_input_eq (hin : c.input = pre ++ L :: chunk ++ post) (hidx : c.idx = pre.length)
    (hL : L.toNat = chunk.length + 1) : slice c.input (c.idx + 1) (c.idx + L.toNat) = chunk := by
  have h := slice_append_append (pre ++ [L]) chunk post
  rw [List.length_append, List.length_singleton] at h
  have hlist : pre ++ L :: chunk ++ post = pre ++ [L] ++ chunk ++ post := by simp
  rw [hin, hidx, hL, hlist, Nat.add_comm chunk.length 1, ← Nat.add_assoc, h]

theorem ne_zero_of_toNat_eq_succ {n : Nat} (hL : L.toNat = n + 1) : L ≠ 0x00#8 := by
  rintro rfl
  simp at hL

/-- R121, R122: the invocation goes on behind a whole block that more bytes follow. -/
theorem finish_of_block_then_more (hin : c.input = pre ++ L :: chunk ++ post) (hidx : c.idx = pre.length)
    (hL : L.toNat = chunk.length + 1) (hz : 0x00#8 ∉ chunk) (hpost : post ≠ []) :
    c.finish = ({ c with
      length := L, idx := c.idx + L.toNat, bound := c.idx + L.toNat,
      out := c.out ++ chunk ++ (if L.toNat < 0xFF then [0x00#8] else []) } : Codec).finish := by
  have hslice := slice_of_input_eq hin hidx hL
  have hlt : c.idx + L.toNat < c.input.length := by
    have hpos := List.length_pos_iff.mpr hpost
    simp only [hin, hidx, hL, List.length_append, List.length_cons]
    omega
  rw [finish_eq (fetch_of_input_eq hin hidx), body_of_ne_zero c (ne_zero_of_toNat_eq_succ hL),
    block_of_more (by rwa [hslice]) hlt, Codec.nextFetch, hslice]

/-- R123: the invocation returns behind a whole block that ends the input. -/
theorem finish_of_last_block (hin : c.input = pre ++ L :: chunk) (hidx : c.idx = pre.length)
    (hL : L.toNat = chunk.length + 1) (hz : 0x00#8 ∉ chunk) : c.finish = .message (c.out ++ chunk) := by
  have hin' : c.input = pre ++ L :: chunk ++ [] := by rw [hin, List.append_nil]
  have hslice := slice_of_input_eq hin' hidx hL
  have heq : c.idx + L.toNat = c.input.length := by simp [hin, hidx, hL]
  rw [finish_eq (fetch_of_input_eq hin' hidx), body_of_ne_zero c (ne_zero_of_toNat_eq_succ hL),
    block_of_exact (by rwa [hslice]) heq, hslice]

end

theorem decode_eq_finish (v : Variant) {input : List Byte} (h : input ≠ []) :
    decode v input = (Codec.start v input).finish := decode_eq_loop v h

/-- R127, the corner case: a first block of 254 bytes implies no zero, so a last block behind it is appended to it. -/
theorem decode_max_block_then_last {full chunk : List Byte} {L : Byte} (v : Variant) (hfull : full.length = 254)
    (hz : 0x00#8 ∉ full) (hL : L.toNat = chunk.length + 1) (hzl : 0x00#8 ∉ chunk) :
    decode v (0xFF#8 :: full ++ L :: chunk) = .message (full ++ chunk) := by
  have hmax : (0xFF#8).toNat = full.length + 1 := by rw [hfull]; rfl
  rw [decode_eq_finish v (by simp),
    finish_of_block_then_more (pre := []) (L := 0xFF#8) (chunk := full) (post := L :: chunk) rfl rfl hmax hz (by simp),
    finish_of_last_block (pre := 0xFF#8 :: full) (L := L) (chunk := chunk) rfl (by simp [hfull]) hL hzl]
  simp

/-- Settles O25: the four ways a block ends, for the length code 0xFF, which implies no zero; and the corner case. -/
theorem lengthCodeMaxEffect : Obligations.LengthCodeMaxEffect := by
  refine ⟨fun s _ => ⟨fun hz => ?_, fun hz => ⟨fun h => ⟨chunk_length_of_le h.le, ?_⟩,
    fun h => ⟨chunk_length_of_le h.le, ?_⟩, fun h => ⟨chunk_length_of_gt h, ?_⟩⟩⟩, fun c hlen hz => ⟨?_, ?_⟩⟩
  · rw [exec_lenMax, block_of_zero_mem_chunk hz]; rfl
  · rw [exec_lenMax, block_of_more hz h, Codec.nextFetch, if_neg (by decide), List.append_nil]; rfl
  · rw [exec_lenMax, block_of_exact hz h]; rfl
  · rw [exec_lenMax, block_of_overrun hz h]
    cases s.codec.variant <;> rfl
  · exact decode_max_block_then_last .cobs hlen hz rfl (by decide)
  · simpa using decode_max_block_then_last (L := 0x01#8) (chunk := []) .cobs hlen hz rfl (by decide)

/-! ## The loop of R125 and its two variants (R130) -/

/-- Settles O26: one pass of the loop is `finish_eq`, and the ways its block ends are those of `block_cases`. -/
theorem decodeIsTheNormativeLoop : Obligations.DecodeIsTheNormativeLoop := by
  refine ⟨decode_nil, fun v input h => decode_eq_finish v h, fun c L hf => ?_⟩
  rw [finish_eq hf]
  by_cases h0 : L = 0x00#8
  · rw [if_pos h0, h0, body_zero]
  have hb : c.idx + 1 + L.toNat - 1 = c.idx + L.toNat := by omega
  simp only [if_neg h0, body_of_ne_zero c h0, slice_clamped, hb]
  by_cases hz : 0x00#8 ∈ slice c.input (c.idx + 1) (c.idx + L.toNat)
  · rw [if_pos hz, block_of_zero_mem_chunk hz]
  rw [if_neg hz]
  obtain hlt | heq | hgt := Nat.lt_trichotomy (c.idx + L.toNat) c.input.length
  · rw [if_neg hlt.not_gt, if_pos hlt, block_of_more hz hlt]; rfl
  · rw [if_neg heq.not_gt, if_neg heq.not_lt, block_of_exact hz heq]
  · rw [if_pos hgt, block_of_overrun hz hgt]
    cases c.variant <;> rfl

/-- R130: a pass that does not overrun does not look at the variant. -/
theorem body_eq_of_not_overrun {c : Codec} {L : Byte}
    (h : L = 0x00#8 ∨ 0x00#8 ∈ slice c.input (c.idx + 1) (c.idx + L.toNat) ∨ c.idx + L.toNat ≤ c.input.length) :
    (∃ r, ∀ v, ({ c with variant := v } : Codec).body L = .done r) ∨
    (∃ c₀ : Codec, ∀ v, ({ c with variant := v } : Codec).body L = .more { c₀ with variant := v }) := by
  by_cases h0 : L = 0x00#8
  · exact .inl ⟨_, fun v => by rw [h0, body_zero]⟩
  simp only [body_of_ne_zero _ h0]
  by_cases hz : 0x00#8 ∈ slice c.input (c.idx + 1) (c.idx + L.toNat)
  · exact .inl ⟨_, fun v => block_of_zero_mem_chunk hz⟩
  obtain hlt | heq := ((h.resolve_left h0).resolve_left hz).lt_or_eq
  · exact .inr ⟨c.nextFetch L, fun v => block_of_more (c := { c with variant := v }) hz hlt⟩
  · exact .inl ⟨.message (c.out ++ slice c.input (c.idx + 1) (c.idx + L.toNat)),
      fun v => block_of_exact (c := { c with variant := v }) hz heq⟩

/-- Settles O28: the overrun by its equation, every other pass by its not looking at the variant. -/
theorem variantsDifferOnlyOnOverrun : Obligations.VariantsDifferOnlyOnOverrun := by
  intro c L
  refine ⟨fun h0 hz hgt => ?_, fun h => ?_⟩
  · rw [body_of_ne_zero _ h0, body_of_ne_zero _ h0]
    exact ⟨block_of_overrun hz hgt, block_of_overrun hz hgt⟩
  · obtain ⟨r, hr⟩ | ⟨c₀, hc⟩ := body_eq_of_not_overrun h
    · simp [hr]
    · simp [hc]

end Sys2Proof.Machine
end

section
/-! PROOFS. The Frame Accumulator (41_accumulator.md): what the strip leaves, the flush, DELIM, DATA and ON_BYTE in a state
that accepts the Event, and where frames come from. -/

namespace Sys2Proof.Machine

section
variable {TS : Type}

/-! ## The strip (R155, R156) -/

theorem strip_received_of_length_lt {S : AccState TS} {k : Nat} (h : S.received.length < k) :
    (S.strip k).received = S.received := by
  rw [strip_received, if_neg h.not_ge]

/-- R156, R158: the strip leaves nothing of an empty buffer and of one of exactly `k` bytes, and of no other. -/
theorem strip_received_eq_nil {S : AccState TS} {k : Nat} :
    (S.strip k).received = [] ↔ S.received = [] ∨ S.received.length = k := by
  rw [strip_received]
  split
  · rw [List.drop_eq_nil_iff, ← List.length_eq_zero_iff]
    omega
  · exact (or_iff_left (by omega)).symm

@[simp] theorem strip_latchStart_received (S : AccState TS) (ts : TS) (k : Nat) :
    ((S.latchStart ts).strip k).received = (S.strip k).received := by
  simp only [strip_received, latchStart_received]

/-! ## The flush (R154) -/

section
variable {S : AccState TS} {cfg : Config} (u ts : TS)

/-- R158: nothing is left after the strip, so no frame. -/
theorem flush_of_strip_eq_nil (h : (S.strip cfg.k.val).received = []) :
    (S.latchStart ts).flush cfg u ts = (AccState.primed ts, none) := by
  refine Prod.ext (flush_fst ..) ?_
  rw [flush_snd, frame_eq_none, strip_latchStart_received, h]

/-- R157: `value(unset)` is not read where an end time is recorded, since the start latch has run. -/
theorem flush_of_strip_ne_nil {e : TS} (hend : S.frameEndTime = some e) (h : (S.strip cfg.k.val).received ≠ []) :
    (S.latchStart ts).flush cfg u ts =
      (AccState.primed ts,
        some ⟨decode cfg.variant (S.strip cfg.k.val).received, S.frameStartTime.getD ts, e⟩) := by
  refine Prod.ext (flush_fst ..) ?_
  simp [flush_snd, AccState.frame, List.length_pos_iff, h, hend]

end

/-! ## A step that accepts its Event (R196) -/

theorem accept_none (s : State TS) (S : AccState TS) :
    s.accept (S, none) = { s with acc := S, out := none, ret := none } := by
  simp [State.accept]

theorem gated_of_accepts {s : State TS} {cls : EventClass} (ts : TS) (r : AccState TS × Option (TimedFrame TS))
    (hb : s.capacity.blocked = false) (hf : cls = .data → s.capacity.full s.acc.received.length = false) :
    s.gated cls ts r = s.accept r := by
  obtain ⟨h, -⟩ | ⟨-, hcls, h, -⟩ | ⟨-, -, h⟩ := gated_cases s cls ts r
  · simp [hb] at h
  · simp [hf hcls] at h
  · exact h

end

section
variable {s : State} (ts te : Timestamp)

theorem exec_delim (hb : s.capacity.blocked = false) :
    exec (.delim ts te) s = .next (s.accept ((s.acc.latchStart ts).flush s.cfg s.unsetTime ts)) :=
  congrArg Host.Outcome.next (gated_of_accepts ts _ hb nofun)

theorem exec_data (b : Byte) (hb : s.capacity.blocked = false)
    (hf : s.capacity.full s.acc.received.length = false) :
    exec (.data b ts te) s = .next (s.accept ((s.acc.latchStart ts).append b te, none)) :=
  congrArg Host.Outcome.next (gated_of_accepts ts _ hb fun _ => hf)

/-- R150, R162: ON_BYTE is the DELIM or DATA instruction of its Event. -/
theorem exec_onByte (ev : Event Timestamp) :
    exec (.onByte ev) s = if ev.byte = 0x00#8 then exec (.delim ev.ts ev.te) s else exec (.data ev.byte ev.ts ev.te) s := by
  simp only [exec, execOnByte, execDelim, execData]
  split
  · next h => rw [onByte_delim _ _ _ h, eventClass_eq_delim.mpr h]
  · next h => rw [onByte_data _ _ _ h, eventClass_eq_data.mpr h]

/-- R157, with the strip by its name. -/
theorem exec_delim_of_strip_ne_nil {e : Timestamp} (hb : s.capacity.blocked = false)
    (hend : s.acc.frameEndTime = some e) (h : (s.acc.strip s.cfg.k.val).received ≠ []) :
    exec (.delim ts te) s = .next (s.accept (AccState.primed ts,
      some ⟨decode s.cfg.variant (s.acc.strip s.cfg.k.val).received, s.acc.frameStartTime.getD ts, e⟩)) := by
  rw [exec_delim ts te hb, flush_of_strip_ne_nil _ ts hend h]

end

/-! ## The statements about one Event -/

/-- Settles O11: the start latch, then the append. -/
theorem dataEventIsAppended : Obligations.DataEventIsAppended := by
  intro s b ts te _ hb hf
  rw [exec_data ts te b hb hf, accept_none, latchStart_eq]
  rfl

/-- Settles O12: the flush of a buffer of which the strip leaves something. -/
theorem delimEmitsTheDecodedFrame : Obligations.DelimEmitsTheDecodedFrame := by
  intro s ts te e hb hend hne
  rw [← strip_received] at hne ⊢
  exact exec_delim_of_strip_ne_nil ts te hb hend hne

/-- Settles O14: the flush of a buffer of which the strip leaves nothing. -/
theorem emptyFrameIsAbsorbed : Obligations.EmptyFrameIsAbsorbed := by
  intro s ts te hb h
  rw [exec_delim ts te hb, flush_of_strip_eq_nil _ ts (strip_received_eq_nil.mpr h), accept_none]
  rfl

/-- Settles O13: a shorter buffer is left whole by the strip, and one of exactly `k` bytes is absorbed. -/
theorem shortFrameIsDecodedWhole : Obligations.ShortFrameIsDecodedWhole := by
  intro s ts te hb
  refine ⟨fun e hend h1 hk => ?_, fun hk => ⟨_, emptyFrameIsAbsorbed s ts te hb (.inr hk), rfl⟩⟩
  have hstrip := strip_received_of_length_lt hk
  have hne : (s.acc.strip s.cfg.k.val).received ≠ [] := by
    rw [hstrip]
    exact List.length_pos_iff.mp h1
  refine ⟨_, exec_delim_of_strip_ne_nil ts te hb hend hne, ?_⟩
  rw [accept_out, hstrip]

/-- Settles O15: the flush primes the next frame whatever it emits. -/
theorem everyDelimPrimesTheNextFrame : Obligations.EveryDelimPrimesTheNextFrame :=
  fun _ ts te hb => ⟨_, exec_delim ts te hb, rfl⟩

/-- Settles O17: the branches of the pseudocode are a DATA event, an absorbed frame and an emitted one. -/
theorem onByteIsTheNormativeAssembly : Obligations.OnByteIsTheNormativeAssembly := by
  intro s ev hcap hend
  have hb : s.capacity.blocked = false := by rw [hcap, unbounded_blocked]
  have hstart : s.acc.frameStartTime.getD ev.ts = match s.acc.frameStartTime with | none => ev.ts | some t => t := by
    cases s.acc.frameStartTime <;> rfl
  dsimp only
  rw [exec_onByte]
  by_cases h0 : ev.byte = 0x00#8
  · rw [if_pos h0, if_pos h0, ← strip_received]
    by_cases hs : (s.acc.strip s.cfg.k.val).received = []
    · rw [emptyFrameIsAbsorbed s ev.ts ev.te hb (strip_received_eq_nil.mp hs)]
      simp [hs]
    · obtain ⟨e, he⟩ := Option.ne_none_iff_exists'.mp (hend fun hnil => hs (strip_received_eq_nil.mpr (.inl hnil)))
      have hframe := exec_delim_of_strip_ne_nil ev.ts ev.te hb he hs
      rw [hstart] at hframe
      rw [if_pos (List.length_pos_iff.mpr hs), he]
      exact hframe
  · have hdata := dataEventIsAppended s ev.byte ev.ts ev.te h0 hb (by rw [hcap, unbounded_full])
    rw [hstart] at hdata
    rw [if_neg h0, if_neg h0]
    exact hdata

/-! ## Where frames come from (R161) -/

section
variable {TS : Type} [Inhabited TS]

theorem execOnByte_emits_nothing {ev : Event TS} {s t : State TS} (h0 : ev.byte ≠ 0x00#8)
    (h : execOnByte ev s = .next t) : t.out = none ∧ t.emitted = s.emitted := by
  rw [execOnByte, onByte_data _ _ _ h0] at h
  obtain rfl := Host.Outcome.next.inj h
  obtain ⟨-, e⟩ | ⟨-, -, -, e⟩ | ⟨-, -, e⟩ := gated_cases s (eventClass ev.byte) ev.ts
      ((s.acc.latchStart ev.ts).append ev.byte ev.te, none) <;>
    simp [e]

/-- R161: of the ways a step can go, only an Event whose byte is 0x00 emits. -/
theorem stepAt_emits_only_at_delim {s t : State TS} (h : stepAt s = .next t) :
    (t.out = none ∧ t.emitted = s.emitted) ∨
    ∃ p rest, s.inputs = .ports p :: rest ∧ p.rst = false ∧ p.inValid = true ∧ p.inByte = 0x00#8 := by
  obtain ⟨-, -, e⟩ | ⟨-, L, -, e⟩ | ⟨-, -, e⟩ | ⟨-, p, rest, -, -, e⟩ | ⟨-, p, rest, hin, hr, hv, -, e⟩ |
    ⟨-, p, rest, -, -, -, -, e⟩ | ⟨-, p, rest, -, -, -, e⟩ | ⟨-, b, input, rest, -, e⟩ | ⟨-, p, v, rest, -, e⟩ :=
    stepAt_cases s
  · cases e.symm.trans h -- an idle step
    exact .inl ⟨rfl, rfl⟩
  · cases e.symm.trans h -- a length code of the open invocation
    exact .inl ⟨afterBlock_out .., afterBlock_emitted ..⟩
  · cases e.symm.trans h -- the fault
  · cases e.symm.trans h -- RESET
    exact .inl ⟨rfl, rfl⟩
  · by_cases h0 : p.inByte = 0x00#8 -- an Event
    · exact .inr ⟨p, rest, hin, hr, hv, h0⟩
    · exact .inl (execOnByte_emits_nothing (s := { s with inputs := rest }) (ev := p.event) h0 (e.symm.trans h))
  · cases e.symm.trans h -- a refused Event
  · cases e.symm.trans h -- an idle port sample
    exact .inl ⟨rfl, rfl⟩
  · cases e.symm.trans h -- a direct call of the Codec
    exact .inl ⟨rfl, rfl⟩
  · obtain ⟨-, hc⟩ | ⟨cfg, -, hc⟩ := configure_cases p v { s with inputs := rest } -- the configuration
    · cases (e.trans hc).symm.trans h
    · cases (e.trans hc).symm.trans h
      exact .inl ⟨rfl, rfl⟩

end

/-- Settles O42: `stepAt_emits_only_at_delim` at the host's timestamps. -/
theorem framesComeOnlyFromDelimiters : Obligations.FramesComeOnlyFromDelimiters := by
  intro s t h hframe
  rw [step_eq_stepAt] at h
  obtain ⟨hout, hem⟩ | hdelim := stepAt_emits_only_at_delim h
  · exact absurd hframe (by simp [hout, hem])
  · exact hdelim

end Sys2Proof.Machine
end

section
/-! PROOFS. The Codec as a whole (40_codec.md): what an invocation returns, as a relation over its blocks, and what follows
from it about the results of `decode`; the stepping of an open invocation. -/

namespace Sys2Proof.Machine

/-! ## What an invocation returns -/

/-- R113 to R123: the invocation with these working values returns this result; one constructor for each way a pass of the
loop ends. `returns_iff` ties it to the loop. -/
inductive Codec.Returns : Codec → DecodeResult → Prop where
  | zeroCode {c : Codec} (hf : c.fetch = some 0x00#8) : c.Returns (.error .zeroByteInInput)
  | zeroInChunk {c : Codec} {L : Byte} (hf : c.fetch = some L) (hL : L ≠ 0x00#8)
      (hz : 0x00#8 ∈ slice c.input (c.idx + 1) (c.idx + L.toNat)) : c.Returns (.error .zeroByteInInput)
  | overrun {c : Codec} {L : Byte} (hf : c.fetch = some L) (hL : L ≠ 0x00#8)
      (hz : 0x00#8 ∉ slice c.input (c.idx + 1) (c.idx + L.toNat)) (h : c.idx + L.toNat > c.input.length) :
      c.Returns (overrunResult c.variant (c.out ++ slice c.input (c.idx + 1) (c.idx + L.toNat)) L)
  | last {c : Codec} {L : Byte} (hf : c.fetch = some L) (hL : L ≠ 0x00#8)
      (hz : 0x00#8 ∉ slice c.input (c.idx + 1) (c.idx + L.toNat)) (h : c.idx + L.toNat = c.input.length) :
      c.Returns (.message (c.out ++ slice c.input (c.idx + 1) (c.idx + L.toNat)))
  | more {c : Codec} {L : Byte} {r : DecodeResult} (hf : c.fetch = some L) (hL : L ≠ 0x00#8)
      (hz : 0x00#8 ∉ slice c.input (c.idx + 1) (c.idx + L.toNat)) (h : c.idx + L.toNat < c.input.length)
      (hr : (c.nextFetch L).Returns r) : c.Returns r

section
variable {c : Codec} {r : DecodeResult}

/-- R132: every invocation with its cursor inside the input returns, and what it returns is what the loop computes. -/
theorem returns_finish (hc : c.idx < c.input.length) : c.Returns c.finish := by
  refine finish_induction (P := fun c => c.Returns c.finish) (fun c hc ih => ?_) c hc
  have hf := fetch_eq_some hc
  generalize c.input[c.idx] = L at hf
  rw [finish_eq hf]
  by_cases hL : L = 0x00#8
  · subst hL
    exact .zeroCode hf
  have hbody := body_of_ne_zero c hL
  by_cases hz : 0x00#8 ∈ slice c.input (c.idx + 1) (c.idx + L.toNat)
  · rw [hbody, block_of_zero_mem_chunk hz]
    exact .zeroInChunk hf hL hz
  obtain hlt | heq | hgt := Nat.lt_trichotomy (c.idx + L.toNat) c.input.length
  · have hmore := hbody.trans (block_of_more hz hlt)
    rw [hmore]
    exact .more hf hL hz hlt (ih L _ hf hmore)
  · rw [hbody, block_of_exact hz heq]
    exact .last hf hL hz heq
  · rw [hbody, block_of_overrun hz hgt]
    exact .overrun hf hL hz hgt

theorem Codec.Returns.finish_eq (h : c.Returns r) : c.finish = r := by
  induction h with
  | zeroCode hf => rw [Machine.finish_eq hf, body_zero]
  | zeroInChunk hf hL hz => rw [Machine.finish_eq hf, body_of_ne_zero _ hL, block_of_zero_mem_chunk hz]
  | overrun hf hL hz h => rw [Machine.finish_eq hf, body_of_ne_zero _ hL, block_of_overrun hz h]
  | last hf hL hz h => rw [Machine.finish_eq hf, body_of_ne_zero _ hL, block_of_exact hz h]
  | more hf hL hz h _ ih => 
    rw [Machine.finish_eq hf, body_of_ne_zero _ hL, block_of_more hz h]
    exact ih

theorem decode_returns (v : Variant) {b : List Byte} (h : b ≠ []) : (Codec.start v b).Returns (decode v b) := by
  rw [decode_eq_finish v h]
  exact returns_finish (List.length_pos_iff.mpr h)

theorem decode_eq_of_returns {v : Variant} {b : List Byte} (hb : b ≠ []) (h : (Codec.start v b).Returns r) :
    decode v b = r := by
  rw [decode_eq_finish v hb, h.finish_eq]

/-! ## Which buffers decode (R89) -/

/-- R89(a): the invocation reports a zero byte exactly if one is at or behind its cursor. -/
theorem Codec.Returns.zeroByte_iff (h : c.Returns r) :
    r = .error .zeroByteInInput ↔ 0x00#8 ∈ c.input.drop c.idx := by
  induction h with
  | zeroCode hf => exact iff_of_true rfl (List.mem_of_getElem? (i := 0) (by rwa [List.getElem?_drop]))
  | zeroInChunk hf hL hz => exact iff_of_true rfl (by simp [drop_eq_block hL hf, hz])
  | @overrun c L hf hL hz h =>
    refine iff_of_false (by cases c.variant <;> exact nofun) ?_
    simp [drop_eq_block hL hf, hL.symm, hz, List.drop_eq_nil_of_le h.le]
  | last hf hL hz h =>
    refine iff_of_false nofun ?_
    rw [drop_eq_block hL hf, List.drop_eq_nil_of_le h.ge]
    simp [hL.symm, hz]
  | more hf hL hz h _ ih =>
    rw [ih, drop_eq_block hL hf]
    simp [hL.symm, hz, Codec.nextFetch]

/-- R89(c): an invocation of COBS/R on zero-free bytes returns a Message. -/
theorem Codec.Returns.message_of_cobsr (h : c.Returns r) (hv : c.variant = .cobsr) (hr : r ≠ .error .zeroByteInInput) :
    ∃ p, r = .message p := by
  induction h with
  | zeroCode => exact absurd rfl hr
  | zeroInChunk => exact absurd rfl hr
  | overrun => rw [hv]; exact ⟨_, rfl⟩
  | last => exact ⟨_, rfl⟩
  | more _ _ _ _ _ ih => exact ih hv hr

/-- R89(d): a Message of COBS does not come from a pass that overruns, so COBS/R returns it too. -/
theorem Codec.Returns.cobsr_of_cobs (h : c.Returns r) (hv : c.variant = .cobs) {p : List Byte} (hr : r = .message p) :
    ({ c with variant := .cobsr } : Codec).Returns (.message p) := by
  induction h with
  | zeroCode => cases hr
  | zeroInChunk => cases hr
  | overrun => rw [hv] at hr; cases hr
  | last hf hL hz h => cases hr; exact .last hf hL hz h
  | more hf hL hz h _ ih => exact .more hf hL hz h (ih hv hr)

theorem tilesFrom_length (b : List Byte) (fuel : Nat) : tilesFrom b fuel b.length = true := by
  cases fuel <;> simp [tilesFrom]

theorem tilesFrom_past_end {b : List Byte} (fuel : Nat) {i : Nat} (h : i > b.length) : tilesFrom b fuel i = false := by
  cases fuel <;> simp [tilesFrom, h.ne', h.le]

theorem tilesFrom_fetch {L : Byte} (fuel : Nat) (hf : c.fetch = some L) :
    tilesFrom c.input (fuel + 1) c.idx = tilesFrom c.input fuel (c.idx + L.toNat) := by
  have hf' : c.input[c.idx]? = some L := hf
  rw [tilesFrom, if_neg (lt_of_fetch hf).ne, hf']

/-- R89(b): on zero-free bytes COBS returns a Message if the blocks tile them, and TruncatedLengthCode if they do not. -/
theorem Codec.Returns.cobs_by_tiles (h : c.Returns r) (hv : c.variant = .cobs) (hr : r ≠ .error .zeroByteInInput)
    {fuel : Nat} (hfuel : c.input.length - c.idx ≤ fuel) :
    (tilesFrom c.input fuel c.idx = true ∧ ∃ p, r = .message p) ∨
    (tilesFrom c.input fuel c.idx = false ∧ r = .error .truncatedLengthCode) := by
  induction h generalizing fuel with
  | zeroCode => exact absurd rfl hr
  | zeroInChunk => exact absurd rfl hr
  | overrun hf _ _ h =>
    obtain ⟨fuel, rfl⟩ := Nat.exists_eq_add_one_of_ne_zero (n := fuel) (by have := lt_of_fetch hf; omega)
    rw [tilesFrom_fetch fuel hf, hv]
    exact .inr ⟨tilesFrom_past_end fuel h, rfl⟩
  | last hf _ _ h =>
    obtain ⟨fuel, rfl⟩ := Nat.exists_eq_add_one_of_ne_zero (n := fuel) (by have := lt_of_fetch hf; omega)
    rw [tilesFrom_fetch fuel hf, h]
    exact .inl ⟨tilesFrom_length _ fuel, _, rfl⟩
  | @more c L r hf hL _ _ _ ih =>
    have hlt := lt_of_fetch hf
    have hpos := one_le_toNat hL
    obtain ⟨fuel, rfl⟩ := Nat.exists_eq_add_one_of_ne_zero (n := fuel) (by omega)
    rw [tilesFrom_fetch fuel hf]
    exact ih hv hr (fuel := fuel) (by simp only [Codec.nextFetch]; omega)

end

theorem decode_eq_zeroByte_iff (v : Variant) (b : List Byte) :
    decode v b = .error .zeroByteInInput ↔ 0x00#8 ∈ b := by
  by_cases hb : b = []
  · simp [hb]
  · exact (decode_returns v hb).zeroByte_iff

theorem decode_cobs_by_tiles {b : List Byte} (hz : 0x00#8 ∉ b) :
    (tiles b = true ∧ ∃ p, decode .cobs b = .message p) ∨
    (tiles b = false ∧ decode .cobs b = .error .truncatedLengthCode) := by
  by_cases hb : b = []
  · subst hb
    exact .inl ⟨rfl, [], rfl⟩
  · exact (decode_returns .cobs hb).cobs_by_tiles rfl (mt (decode_eq_zeroByte_iff _ b).mp hz) (Nat.sub_le ..)

theorem decode_cobsr_message {b : List Byte} (hz : 0x00#8 ∉ b) : ∃ p, decode .cobsr b = .message p := by
  by_cases hb : b = []
  · subst hb
    exact ⟨[], rfl⟩
  · exact (decode_returns .cobsr hb).message_of_cobsr rfl (mt (decode_eq_zeroByte_iff _ b).mp hz)

theorem decode_cobsr_of_cobs {b p : List Byte} (h : decode .cobs b = .message p) : decode .cobsr b = .message p := by
  by_cases hb : b = []
  · subst hb
    exact h
  · exact decode_eq_of_returns hb ((decode_returns .cobs hb).cobsr_of_cobs rfl h)

/-- A buffer for which a Message is returned holds no zero byte. -/
theorem zero_notMem_of_decode {v : Variant} {b p : List Byte} (h : decode v b = .message p) : 0x00#8 ∉ b := by
  rw [← decode_eq_zeroByte_iff v, h]
  nofun

/-- Settles O30: a zero byte is found wherever it stands, and on zero-free bytes COBS fails only where a block overruns,
which is where the blocks do not tile, and COBS/R never. -/
theorem whichBuffersDecode : Obligations.WhichBuffersDecode := by
  refine fun b => ⟨fun v => decode_eq_zeroByte_iff v b, ⟨?_, ?_⟩, ?_, decode_cobsr_message, ?_,
    fun p => decode_cobsr_of_cobs⟩
  · rintro ⟨p, hp⟩
    have hz := zero_notMem_of_decode hp
    obtain ⟨ht, -⟩ | ⟨-, he⟩ := decode_cobs_by_tiles hz
    · exact ⟨hz, ht⟩
    · cases hp.symm.trans he
  · rintro ⟨hz, ht⟩
    obtain ⟨-, hp⟩ | ⟨hf, -⟩ := decode_cobs_by_tiles hz
    · exact hp
    · cases ht.symm.trans hf
  · intro hz hf
    obtain ⟨ht, -⟩ | ⟨-, he⟩ := decode_cobs_by_tiles hz
    · cases ht.symm.trans hf
    · exact he
  · intro htrunc
    by_cases hz : 0x00#8 ∈ b
    · cases ((decode_eq_zeroByte_iff .cobsr b).mpr hz).symm.trans htrunc
    · obtain ⟨p, hp⟩ := decode_cobsr_message hz
      cases hp.symm.trans htrunc

/-! ## The length of a payload -/

/-- A block appends no more bytes than it takes, and the last one of COBS one byte fewer. -/
theorem Codec.Returns.length_le {c : Codec} {r : DecodeResult} (h : c.Returns r) {p : List Byte} (hr : r = .message p) :
    p.length ≤ c.out.length + (c.input.length - c.idx) ∧
    (c.variant = .cobs → p.length < c.out.length + (c.input.length - c.idx)) := by
  induction h with
  | zeroCode => cases hr
  | zeroInChunk => cases hr
  | @overrun c L hf hL hz h =>
    have hlt := lt_of_fetch hf
    have hlen := chunk_length_of_gt h
    cases hv : c.variant with
    | cobs => rw [hv] at hr; cases hr
    | cobsr =>
      rw [hv] at hr
      cases hr
      simp only [List.length_append, List.length_singleton, hlen]
      exact ⟨by omega, nofun⟩
  | @last c L hf hL hz h =>
    cases hr
    have hlt := lt_of_fetch hf
    rw [List.length_append, chunk_length_of_le h.le]
    omega
  | @more c L r hf hL hz h _ ih =>
    have hpos := one_le_toNat hL
    have hlen := chunk_length_of_le h.le
    have himplied : (if L.toNat < 0xFF then [0x00#8] else [] : List Byte).length ≤ 1 := by split <;> simp
    have := ih hr
    simp only [Codec.nextFetch, List.length_append, hlen] at this
    refine this.imp (fun h => ?_) fun h hv => ?_
    · omega
    · have := h hv
      omega

/-- Settles O31: from the start of an invocation nothing has been appended and the whole buffer lies ahead. -/
theorem payloadIsNoLongerThanItsBuffer : Obligations.PayloadIsNoLongerThanItsBuffer := by
  intro b p
  by_cases hb : b = []
  · subst hb
    refine ⟨fun v h => ?_, fun h => absurd rfl h⟩
    cases h
    exact le_rfl
  · have hlen (v : Variant) (h : decode v b = .message p) := (decode_returns v hb).length_le h
    simp only [start_out, start_input, start_idx, start_variant, List.length_nil, Nat.zero_add, Nat.sub_zero] at hlen
    exact ⟨fun v h => (hlen v h).1, fun _ h => Nat.le_sub_one_of_lt ((hlen .cobs h).2 rfl)⟩

/-! ## Single passes, direct calls, and stepping an invocation -/

/-- Settles O29: the bound of a block, and what `body_more` says of a pass that goes back to the fetch. -/
theorem cursorMovesForwardInsideTheInput : Obligations.CursorMovesForwardInsideTheInput := by
  intro c L hlt
  refine ⟨?_, fun c' h => ?_⟩
  · rw [copyChunk_idx, advance_bound]
    have := L.isLt
    omega
  · obtain ⟨hne, hin, hvar, hidx, hlt'⟩ := body_more h
    have hpos := one_le_toNat hne
    exact ⟨hin, hvar, hidx, by omega, hlt'⟩

/-- Settles O23: the instruction as defined, and a pass of the loop on a zero length code. -/
theorem lengthCodeZeroIsAnError : Obligations.LengthCodeZeroIsAnError :=
  ⟨fun _ => rfl, fun _ hf => (Codec.Returns.zeroCode hf).finish_eq, by decide, by decide⟩

/-- Settles O27: the two entries return the result of `decode` and nothing more. -/
theorem directCallReturnsTheDecodeResult : Obligations.DirectCallReturnsTheDecodeResult :=
  fun _ _ => ⟨rfl, rfl⟩

/-- Settles O37: each of the five leaves the instruction by `afterBlock` or `returning`, whose field lemmas say the rest. -/
theorem codecInstructionsLeaveTheAccumulatorAlone : Obligations.CodecInstructionsLeaveTheAccumulatorAlone := by
  refine ⟨fun s i hi => ?_, fun s i hi => ?_⟩
  · obtain rfl | rfl | ⟨L, rfl⟩ | ⟨b, rfl⟩ | ⟨b, rfl⟩ := hi
    · exact ⟨s.afterBlock _, rfl, by simp⟩
    · exact ⟨s.afterBlock _, rfl, by simp⟩
    · exact ⟨s.afterBlock _, rfl, by simp⟩
    · exact ⟨s.returning _, rfl, by simp⟩
    · exact ⟨s.returning _, rfl, by simp⟩
  · obtain ⟨b, rfl⟩ | ⟨b, rfl⟩ := hi
    · exact ⟨_, rfl, rfl⟩
    · exact ⟨_, rfl, rfl⟩

theorem step_openInvocation {s : State} {L : Byte} (hf : s.codec.fetch = some L) :
    step s = .next (s.afterBlock (s.codec.body L)) := by
  have hopen : s.codec.isOpen = true := by
    have hlen := lt_of_fetch hf
    simp only [Codec.isOpen, Bool.not_eq_true', List.isEmpty_eq_false_iff, ← List.length_pos_iff]
    omega
  simp only [step, stepWith, hopen, hf, if_true, exec_decodeLengthCode]

/-- R132: stepping an open invocation takes at most one step for each byte ahead of its cursor. -/
theorem run_openInvocation (c : Codec) (hc : c.idx < c.input.length) (s : State) (hs : s.codec = c) :
    ∃ m, 1 ≤ m ∧ m ≤ c.input.length - c.idx ∧
      core.run m s = .next { s with codec := Codec.idle, out := none, ret := some c.finish } := by
  refine finish_induction (P := fun c => ∀ s : State, s.codec = c → ∃ m, 1 ≤ m ∧ m ≤ c.input.length - c.idx ∧
    core.run m s = .next { s with codec := Codec.idle, out := none, ret := some c.finish }) ?_ c hc s hs
  rintro c hc ih s rfl
  have hf := fetch_eq_some hc
  have hstep := step_openInvocation hf
  rw [finish_eq hf]
  cases hb : s.codec.body s.codec.input[s.codec.idx] with
  | done r =>
    rw [hb] at hstep
    exact ⟨1, le_rfl, by omega, run_succ 0 hstep⟩
  | more c' =>
    rw [hb] at hstep
    obtain ⟨hne, hin, -, hidx, hlt⟩ := body_more hb
    have hpos := one_le_toNat hne
    obtain ⟨m, h1, hm, hrun⟩ := ih _ _ hf hb (s.afterBlock (.more c')) (afterMore_codec s c')
    rw [hin] at hm hlt
    exact ⟨m + 1, by omega, by omega, (run_succ m hstep).trans hrun⟩

/-- Settles O34: `run_openInvocation` from the start of the invocation. -/
theorem steppingAnInvocationComputesDecode : Obligations.SteppingAnInvocationComputesDecode := by
  intro s v input hne hs
  rw [decode_eq_finish v hne]
  exact run_openInvocation (Codec.start v input) (List.length_pos_iff.mpr hne) s hs

end Sys2Proof.Machine
end

section
/-! PROOFS. The round trips with the oracle encoders (95_test_vectors.md section 5): the invocation that stands before what an
encoder still has to write returns what the encoder still has to encode. -/

namespace Sys2Proof.Machine

theorem codeAfter_toNat {n : Nat} (h : n ≤ 254) : (codeAfter n).toNat = n + 1 := by
  rw [codeAfter, BitVec.toNat_ofNat, Nat.mod_eq_of_lt (by omega)]

@[simp] theorem nextFetch_input (c : Codec) (L : Byte) : (c.nextFetch L).input = c.input := rfl

/-- R121, R122: behind a whole block that more bytes follow the invocation stands before these bytes, and the block's chunk,
with the zero that its length code implies, has been appended. -/
theorem nextFetch_of_block {c : Codec} {L : Byte} {pre chunk post : List Byte} (hin : c.input = pre ++ L :: chunk ++ post)
    (hidx : c.idx = pre.length) (hL : L.toNat = chunk.length + 1) (hz : 0x00#8 ∉ chunk) (hpost : post ≠ []) :
    c.finish = (c.nextFetch L).finish ∧ (c.nextFetch L).idx = (pre ++ L :: chunk).length ∧
    (c.nextFetch L).out = c.out ++ chunk ++ (if L.toNat < 0xFF then [0x00#8] else []) := by
  rw [finish_of_block_then_more hin hidx hL hz hpost, Codec.nextFetch, slice_of_input_eq hin hidx hL]
  exact ⟨rfl, by simp [hidx, hL], rfl⟩

/-! ## COBS -/

/-- `enc_cobs` writes nothing more only after a full block that ends the payload. -/
theorem encCobsFrom_eq_nil {cur : List Byte} {finalZero : Bool} {p : List Byte} :
    encCobsFrom cur finalZero p = [] ↔ cur = [] ∧ finalZero = false ∧ p = [] := by
  induction p generalizing cur finalZero with
  | nil => simp [encCobsFrom]
  | cons x xs ih =>
    rw [encCobsFrom]
    split
    · simp
    · split
      · simp
      · simp [ih]

/-- The last block of an encoding: the invocation returns behind it. -/
theorem finish_codeAfter_last {c : Codec} {pre cur : List Byte} (hin : c.input = pre ++ codeAfter cur.length :: cur)
    (hidx : c.idx = pre.length) (hlen : cur.length ≤ 254) (hz : 0x00#8 ∉ cur) :
    c.finish = .message (c.out ++ cur) :=
  finish_of_last_block hin hidx (codeAfter_toNat hlen) hz

/-- The invocation that stands before the rest of an encoding of COBS returns the bytes that the rest encodes. -/
theorem finish_encCobsFrom {cur : List Byte} {finalZero : Bool} {p : List Byte} {c : Codec} {pre : List Byte}
    (hin : c.input = pre ++ encCobsFrom cur finalZero p) (hidx : c.idx = pre.length) (hlen : cur.length ≤ 0xFD)
    (hz : 0x00#8 ∉ cur) (hne : encCobsFrom cur finalZero p ≠ []) : c.finish = .message (c.out ++ cur ++ p) := by
  induction p generalizing cur finalZero c pre with
  | nil =>
    have hlast : cur ≠ [] ∨ finalZero = true := by
      by_contra h
      exact hne (if_neg h)
    rw [encCobsFrom, if_pos hlast] at hin
    rw [List.append_nil]
    exact finish_codeAfter_last hin hidx (by omega) hz
  | cons x xs ih =>
    rw [encCobsFrom] at hin
    by_cases hx : x = 0x00#8
    · -- a zero ends the block and is the implied one
      have hcode := codeAfter_toNat (n := cur.length) (by omega)
      have hrest : encCobsFrom [] true xs ≠ [] := by simp [encCobsFrom_eq_nil]
      rw [if_pos hx, ← List.append_assoc] at hin
      obtain ⟨hfin, hidx', hout⟩ := nextFetch_of_block hin hidx hcode hz hrest
      rw [hfin, ih (c := c.nextFetch _) hin hidx' (by simp) (by simp) hrest, hout, if_pos (by omega)]
      simp [hx]
    · have hz' : 0x00#8 ∉ cur ++ [x] := by simp [hz, Ne.symm hx]
      rw [if_neg hx] at hin
      by_cases hfull : cur.length = 0xFD
      · -- a full block, behind which no zero is implied
        have hcode : (0xFF#8).toNat = (cur ++ [x]).length + 1 := by simp [hfull]
        rw [if_pos hfull, ← List.append_assoc] at hin
        by_cases hrest : encCobsFrom [] false xs = []
        · obtain ⟨-, -, rfl⟩ := encCobsFrom_eq_nil.mp hrest
          rw [hrest, List.append_nil] at hin
          rw [finish_of_last_block hin hidx hcode hz', List.append_assoc]
        · obtain ⟨hfin, hidx', hout⟩ := nextFetch_of_block hin hidx hcode hz' hrest
          rw [hfin, ih (c := c.nextFetch _) hin hidx' (by simp) (by simp) hrest, hout, if_neg (by decide)]
          simp
      · rw [if_neg hfull] at hin
        rw [ih hin hidx (by rw [List.length_append, List.length_singleton]; omega) hz' (by simp [encCobsFrom_eq_nil])]
        simp

theorem encCobs_ne_nil (p : List Byte) : encCobs p ≠ [] := by simp [encCobs, encCobsFrom_eq_nil]

/-- Settles O32: the invocation at its start stands before the whole encoding. -/
theorem cobsRoundTrip : Obligations.CobsRoundTrip := fun p => by
  rw [decode_eq_finish _ (encCobs_ne_nil p)]
  exact finish_encCobsFrom (cur := []) (finalZero := true) (pre := []) rfl rfl (by simp) (by simp) (encCobs_ne_nil p)

/-! ## COBS/R -/

theorem slice_to_past_end (pre : List Byte) (L : Byte) (chunk : List Byte) {n : Nat}
    (hn : (pre ++ L :: chunk).length ≤ n) : slice (pre ++ L :: chunk) (pre.length + 1) n = chunk := by
  rw [slice, List.take_of_length_le hn, ← List.drop_drop, List.drop_left, List.drop_succ_cons, List.drop_zero]

/-- R120: COBS/R returns the length code of an overrunning last block as its last byte. -/
theorem finish_of_salvaged_block {c : Codec} {L : Byte} {pre chunk : List Byte} (hin : c.input = pre ++ L :: chunk)
    (hidx : c.idx = pre.length) (hv : c.variant = .cobsr) (hL : chunk.length + 1 < L.toNat) (hz : 0x00#8 ∉ chunk) :
    c.finish = .message (c.out ++ chunk ++ [L]) := by
  have hgt : c.idx + L.toNat > c.input.length := by
    simp only [hin, hidx, List.length_append, List.length_cons]
    omega
  have hslice : slice c.input (c.idx + 1) (c.idx + L.toNat) = chunk := by
    rw [hidx, hin] at hgt ⊢
    exact slice_to_past_end pre L chunk hgt.le
  have hL0 : L ≠ 0x00#8 := by
    rintro rfl
    simp at hL
  have hret := Codec.Returns.overrun (fetch_of_input_eq (post := []) (by rw [hin, List.append_nil]) hidx) hL0
    (by rwa [hslice]) hgt
  rw [hret.finish_eq, hv, hslice, overrunResult]

/-- The end of an encoding of COBS/R is its last block, with the length code or the last byte in the first place. -/
theorem finish_encCobsrEnd {cur : List Byte} {c : Codec} {pre : List Byte} (hin : c.input = pre ++ encCobsrEnd cur)
    (hidx : c.idx = pre.length) (hv : c.variant = .cobsr) (hlen : cur.length ≤ 254) (hz : 0x00#8 ∉ cur) :
    c.finish = .message (c.out ++ cur) := by
  rw [encCobsrEnd] at hin
  by_cases hlast : (cur.getLastD 0x00#8).toNat < cur.length + 1
  · rw [if_pos hlast] at hin
    exact finish_codeAfter_last hin hidx hlen hz
  · rw [if_neg hlast] at hin
    obtain rfl | ⟨init, x, rfl⟩ := cur.eq_nil_or_concat
    · simp at hlast
    · simp only [List.concat_eq_append, List.getLastD_concat, List.dropLast_concat, List.length_append,
        List.length_singleton, List.mem_append, not_or] at hin hlast hz
      rw [finish_of_salvaged_block hin hidx hv (by omega) hz.1]
      simp

theorem encCobsrEnd_ne_nil (cur : List Byte) : encCobsrEnd cur ≠ [] := by
  rw [encCobsrEnd]
  split <;> simp

/-- `enc_cobsr` always writes a last block. -/
theorem encCobsrFrom_ne_nil (cur p : List Byte) : encCobsrFrom cur p ≠ [] := by
  induction p generalizing cur with
  | nil => exact encCobsrEnd_ne_nil cur
  | cons x xs ih =>
    rw [encCobsrFrom]
    split
    · simp
    · split
      · simp
      · exact ih _

/-- The invocation that stands before the rest of an encoding of COBS/R returns the bytes that the rest encodes. -/
theorem finish_encCobsrFrom {cur p : List Byte} {c : Codec} {pre : List Byte}
    (hin : c.input = pre ++ encCobsrFrom cur p) (hidx : c.idx = pre.length) (hv : c.variant = .cobsr)
    (hlen : cur.length ≤ 0xFE) (hz : 0x00#8 ∉ cur) : c.finish = .message (c.out ++ cur ++ p) := by
  induction p generalizing cur c pre with
  | nil =>
    rw [List.append_nil]
    exact finish_encCobsrEnd hin hidx hv hlen hz
  | cons x xs ih =>
    have hzero {cur : List Byte} {c : Codec} {pre : List Byte}
        (hin : c.input = pre ++ codeAfter cur.length :: cur ++ encCobsrFrom [] xs) (hidx : c.idx = pre.length)
        (hv : c.variant = .cobsr) (hlen : cur.length < 0xFE) (hz : 0x00#8 ∉ cur) :
        c.finish = .message (c.out ++ cur ++ 0x00#8 :: xs) := by
      -- a zero ends the block and is the implied one
      have hcode := codeAfter_toNat (n := cur.length) (by omega)
      obtain ⟨hfin, hidx', hout⟩ := nextFetch_of_block hin hidx hcode hz (encCobsrFrom_ne_nil [] xs)
      rw [hfin, ih (c := c.nextFetch _) hin hidx' hv (by simp) (by simp), hout, if_pos (by omega)]
      simp
    rw [encCobsrFrom] at hin
    by_cases hfull : cur.length = 0xFE
    · -- a full block, behind which no zero is implied
      have hcode : (0xFF#8).toNat = cur.length + 1 := by simp [hfull]
      rw [if_pos hfull, ← List.append_assoc] at hin
      obtain ⟨hfin, hidx', hout⟩ := nextFetch_of_block hin hidx hcode hz
        (by split <;> simp [encCobsrFrom_ne_nil])
      rw [hfin]
      by_cases hx : x = 0x00#8
      · rw [if_pos hx] at hin
        rw [hzero (cur := []) (c := c.nextFetch _) (by simpa using hin) hidx' hv (by simp) (by simp), hout, hx]
        simp
      · rw [if_neg hx] at hin
        rw [ih (c := c.nextFetch _) hin hidx' hv (by simp) (by simp [Ne.symm hx]), hout]
        simp
    · rw [if_neg hfull] at hin
      by_cases hx : x = 0x00#8
      · rw [if_pos hx, ← List.append_assoc] at hin
        rw [hzero hin hidx hv (by omega) hz, hx]
      · rw [if_neg hx] at hin
        rw [ih hin hidx hv (by rw [List.length_append, List.length_singleton]; omega) (by simp [hz, Ne.symm hx])]
        simp

/-- Settles O33: the invocation at its start stands before the whole encoding. -/
theorem cobsrRoundTrip : Obligations.CobsrRoundTrip := fun p => by
  rw [encCobsr, decode_eq_finish _ (encCobsrFrom_ne_nil [] p)]
  exact finish_encCobsrFrom (cur := []) (pre := []) rfl rfl rfl (by simp) (by simp)

end Sys2Proof.Machine
end

section
/-! PROOFS. Formats (30_encoding.md): length codes, the decoder and the encoder, the configuration ports and the output
ports. -/

namespace Sys2Proof

variable {TS : Type}

/-! ## Length codes (R84) -/

/-- R84: the rows of the length_code space, tried in the order of priority, give the class of a length code. -/
theorem firstMatch_lengthRows (b : Byte) : firstMatch b lengthRows = some (lengthClass b) := by
  rw [lengthRows, firstMatch_cons_fullMask, firstMatch_cons_fullMask, firstMatch_cons_zeroMask, lengthClass,
    apply_ite some, apply_ite some]

/-- Settles O2: the decoder of the length_code space and its three rows, two full masks and then a catch-all, make the same
split. -/
theorem lengthCodeHasOneOfThreeClasses : Obligations.LengthCodeHasOneOfThreeClasses := by
  intro TS L
  constructor
  · rw [decodeInstr, decodeLengthCode_eq]
  · rw [firstMatch_lengthRows, lengthClass]

/-! ## Decoding and encoding -/

theorem isDataByte_iff {b : Byte} : isDataByte b = true ↔ b ≠ 0x00#8 := bne_iff_ne

theorem isChunkCode_iff {L : Byte} : isChunkCode L = true ↔ L ≠ 0x00#8 ∧ L ≠ 0xFF#8 := by
  rw [isChunkCode, Bool.and_eq_true, bne_iff_ne, bne_iff_ne]

theorem decodeInstr_encode [Inhabited TS] {i : Instr TS} (h : i.WellFormed) : decodeInstr (encode i) = .ok i := by
  cases i with
  | delim ts te => simp [encode, decodeInstr, decodeEvent_eq]
  | data b ts te => simp [encode, decodeInstr, decodeEvent_eq, isDataByte_iff.mp h]
  | lenZero => rfl
  | lenMax => rfl
  | lenChunk L =>
    obtain ⟨h0, hmax⟩ := isChunkCode_iff.mp h
    simp [encode, decodeInstr, decodeLengthCode_eq, h0, hmax]
  | decodeCobs input => rfl
  | decodeCobsr input => rfl
  | onByte ev => rfl
  | reset => rfl

theorem decodeEvent_wellFormed (ev : Event TS) : (decodeEvent ev).WellFormed := by
  rw [decodeEvent_eq]
  split
  · rfl
  · next h => exact isDataByte_iff.mpr h

theorem encode_decodeEvent [Inhabited TS] (ev : Event TS) : encode (decodeEvent ev) = .event ev := by
  obtain ⟨b, ts, te⟩ := ev
  rw [decodeEvent_eq]
  split
  · next h => rw [show b = 0x00#8 from h]; rfl
  · rfl

theorem decodeLengthCode_wellFormed (b : Byte) : (decodeLengthCode b : Instr TS).WellFormed := by
  rw [decodeLengthCode_eq]
  split
  · rfl
  · next h0 =>
    split
    · rfl
    · next hmax => exact isChunkCode_iff.mpr ⟨h0, hmax⟩

theorem encode_decodeLengthCode [Inhabited TS] (b : Byte) : encode (decodeLengthCode b : Instr TS) = .lengthCode b := by
  rw [decodeLengthCode_eq]
  split
  · next h => rw [h]; rfl
  · split
    · next h => rw [h]; rfl
    · rfl

/-- A sample that delivers an Event is the one that the encoder writes for ON_BYTE. -/
theorem portsOfEvent_event {p : InPorts TS} (hr : p.rst = false) (hv : p.inValid = true) : portsOfEvent p.event = p := by
  cases p
  simp_all [portsOfEvent, InPorts.event]

/-- Settles O3: by the constructors of the instruction one way, by the four decode points the other. -/
theorem decodeAndEncodeAgree : Obligations.DecodeAndEncodeAgree := by
  refine fun TS _ => ⟨fun i => decodeInstr_encode, fun c i h => ?_⟩
  cases c with
  | event ev =>
    obtain rfl := Except.ok.inj h
    exact ⟨decodeEvent_wellFormed ev, fun _ => encode_decodeEvent ev⟩
  | lengthCode b =>
    obtain rfl := Except.ok.inj h
    exact ⟨decodeLengthCode_wellFormed b, fun _ => encode_decodeLengthCode b⟩
  | ports p =>
    obtain ⟨hr, hd⟩ | ⟨hr, hv, hd⟩ | ⟨-, -, hd⟩ := decodePorts_cases p
    · obtain rfl := Except.ok.inj (hd.symm.trans h)
      exact ⟨rfl, fun hreset => congrArg Coded.ports (hreset p rfl hr).symm⟩
    · obtain rfl := Except.ok.inj (hd.symm.trans h)
      exact ⟨rfl, fun _ => congrArg Coded.ports (portsOfEvent_event hr hv)⟩
    · cases hd.symm.trans h
  | call variantBit input =>
    obtain rfl := Except.ok.inj h
    cases variantBit
    · exact ⟨rfl, fun _ => rfl⟩
    · exact ⟨rfl, fun _ => rfl⟩

/-- Settles O4: each word is evaluated. -/
theorem writtenWordsDecode : Obligations.WrittenWordsDecode :=
  ⟨rfl, rfl, rfl, rfl, rfl, rfl, rfl, rfl, rfl, rfl, rfl⟩

/-! ## The configuration ports (R90) -/

@[simp] theorem decodeVariant_encodeVariant (v : Variant) : decodeVariant (encodeVariant v) = v := by cases v <;> rfl

@[simp] theorem encodeVariant_decodeVariant (b : Bool) : encodeVariant (decodeVariant b) = b := by cases b <;> rfl

theorem decodeConfig_of_lt {p : BitVec 4} (v : Bool) (h : p.toNat < 11) :
    decodeConfig p v = .ok ⟨⟨p.toNat, h⟩, decodeVariant v⟩ := dif_pos h

theorem decodeConfig_of_toNat_eq {p : BitVec 4} (v : Bool) {k : Fin 11} (h : p.toNat = k.val) :
    decodeConfig p v = .ok ⟨k, decodeVariant v⟩ := by
  obtain ⟨k, hk⟩ := k
  subst h
  exact decodeConfig_of_lt v hk

theorem decodeConfig_of_le {p : BitVec 4} (v : Bool) (h : 11 ≤ p.toNat) : decodeConfig p v = .error .reservedPrefix :=
  dif_neg h.not_gt

/-- Settles O5: a count of at most 10 fits the four bits of the port, so neither way loses anything. -/
theorem configurationCodesAgree : Obligations.ConfigurationCodesAgree := by
  refine ⟨fun cfg => ?_, fun p v h => ?_, fun p v => decodeConfig_of_le v⟩
  · have hk : (encodeConfig cfg).1.toNat = cfg.k.val := by
      have := cfg.k.isLt
      rw [encodeConfig, BitVec.toNat_ofNat, Nat.mod_eq_of_lt (by omega)]
    rw [decodeConfig_of_toNat_eq _ hk, encodeConfig, decodeVariant_encodeVariant]
  · refine ⟨_, decodeConfig_of_lt v (by omega), rfl, rfl, ?_⟩
    simp [encodeConfig]

end Sys2Proof

namespace Sys2Proof.Machine

/-! ## The output ports (R92) -/

section
variable {TS : Type} (any : OutPorts TS)

@[simp] theorem reasonOfCode_code (r : Reason) : reasonOfCode r.code = r := by cases r <;> rfl

theorem outPorts_message (p : List Byte) (a b : TS) :
    outPorts any (some ⟨.message p, a, b⟩) =
      { any with outValid := true, outKind := false, outStart := a, outEnd := b,
                 outLen := p.length, outPayload := p ++ any.outPayload } := rfl

theorem outPorts_error (r : Reason) (a b : TS) :
    outPorts any (some ⟨.error r, a, b⟩) =
      { any with outValid := true, outKind := true, outReason := r.code, outStart := a, outEnd := b } := rfl

/-- R92: a consumer reads back the frame that the ports present. -/
theorem frame_outPorts (f : Option (TimedFrame TS)) : (outPorts any f).frame = f := by
  obtain _ | ⟨p | r, a, b⟩ := f
  · rfl
  · simp [outPorts_message, OutPorts.frame]
  · simp [outPorts_error, OutPorts.frame]

end

/-- Settles O6: no frame, a Message and an Error, each by the ports that present it. -/
theorem outputPortsCarryTheFrame : Obligations.OutputPortsCarryTheFrame := by
  refine fun TS any f => ⟨frame_outPorts any f, ?_⟩
  obtain _ | ⟨p | r, a, b⟩ := f
  · exact ⟨rfl, nofun⟩
  · refine ⟨rfl, ?_⟩
    rintro F ⟨⟩
    refine ⟨rfl, rfl, ?_, nofun, nofun⟩
    rintro q ⟨⟩
    exact ⟨rfl, rfl, List.take_left⟩
  · refine ⟨rfl, ?_⟩
    rintro F ⟨⟩
    refine ⟨rfl, rfl, nofun, ?_, ?_⟩
    · rintro ⟨⟩
      exact ⟨rfl, rfl⟩
    · rintro ⟨⟩
      exact ⟨rfl, rfl⟩

end Sys2Proof.Machine
end

section
/-! PROOFS. One Event, continued (41_accumulator.md): when a frame is emitted and what it can carry, overflow, and the frame
of the Accumulator's instructions; the invariant of the Accumulator State (10_state.md R24). -/

namespace Sys2Proof.Machine

section
variable {TS : Type}

/-! ## The invariant of the Accumulator State (R24) -/

theorem zero_notMem_of_inv {S : AccState TS} (h : S.Inv) : 0x00#8 ∉ S.received := fun hm => h.1 _ hm rfl

theorem frameEndTime_ne_none_of_inv {S : AccState TS} (h : S.Inv) (hne : S.received ≠ []) : S.frameEndTime ≠ none :=
  Option.isSome_iff_ne_none.mp (h.2.1.mpr hne)

theorem frameStartTime_ne_none_of_inv {S : AccState TS} (h : S.Inv) (hne : S.received ≠ []) : S.frameStartTime ≠ none := by
  intro hstart
  exact hne (h.2.2 (by rw [AccState.fstValid, hstart]; rfl)).1

theorem reset_inv : (AccState.reset : AccState TS).Inv := ⟨nofun, by simp [AccState.fetValid], by simp⟩

theorem primed_inv (ts : TS) : (AccState.primed ts).Inv := ⟨nofun, by simp [AccState.fetValid], by simp⟩

theorem latchStart_inv {S : AccState TS} (h : S.Inv) (ts : TS) : (S.latchStart ts).Inv := by
  obtain ⟨hz, hend, -⟩ := h
  exact ⟨by simpa using hz, by simpa [AccState.fetValid] using hend, by simp [AccState.fstValid]⟩

theorem append_inv {S : AccState TS} (h : S.Inv) (hs : S.fstValid = true) {b : Byte} (hb : b ≠ 0x00#8) (te : TS) :
    (S.append b te).Inv := by
  refine ⟨fun x hx => ?_, by simp [AccState.fetValid], fun hf => ?_⟩
  · rw [append_received, List.mem_append, List.mem_singleton] at hx
    obtain hx | rfl := hx
    · exact h.1 x hx
    · exact hb
  · cases hs.symm.trans hf

/-- R24: an Event keeps the invariant; the start latch has run before a byte is appended. -/
theorem onByte_inv {S : AccState TS} (h : S.Inv) (cfg : Config) (u : TS) (ev : Event TS) : (onByte cfg u S ev).1.Inv := by
  by_cases h0 : ev.byte = 0x00#8
  · rw [onByte_delim _ _ _ h0, flush_fst]
    exact primed_inv ev.ts
  · rw [onByte_data _ _ _ h0]
    exact append_inv (latchStart_inv h ev.ts) (by simp [AccState.fstValid]) h0 ev.te

/-! ## What `on_byte` emits (R157, R158) -/

section
variable {cfg : Config} {u : TS} {S : AccState TS} {ev : Event TS}

/-- R158, R161: a frame comes of a DELIM event whose buffer the strip does not empty. -/
theorem onByte_snd_isSome :
    (onByte cfg u S ev).2.isSome = true ↔ ev.byte = 0x00#8 ∧ 1 ≤ S.received.length ∧ S.received.length ≠ cfg.k.val := by
  by_cases h0 : ev.byte = 0x00#8
  · rw [onByte_delim _ _ _ h0, flush_snd, Option.isSome_iff_ne_none, Ne, frame_eq_none, strip_latchStart_received,
      strip_received_eq_nil, not_or, and_iff_right h0, ← List.length_eq_zero_iff]
    omega
  · simp [onByte_data _ _ _ h0, h0]

theorem result_of_onByte {F : TimedFrame TS} (h : (onByte cfg u S ev).2 = some F) :
    F.result = decode cfg.variant (S.strip cfg.k.val).received := by
  by_cases h0 : ev.byte = 0x00#8
  · rw [onByte_delim _ _ _ h0, flush_snd, AccState.frame, strip_latchStart_received] at h
    split at h
    · obtain rfl := Option.some.inj h
      rfl
    · cases h
  · rw [onByte_data _ _ _ h0] at h
    cases h

end

/-! ## What a step of the Accumulator leaves alone (R196) -/

section
variable (s : State TS) (cls : EventClass) (ts : TS) (r : AccState TS × Option (TimedFrame TS))

@[simp] theorem gated_cfg : (s.gated cls ts r).cfg = s.cfg := by
  obtain ⟨-, e⟩ | ⟨-, -, -, e⟩ | ⟨-, -, e⟩ := gated_cases s cls ts r <;> rw [e] <;> rfl
@[simp] theorem gated_runCfg : (s.gated cls ts r).runCfg = s.runCfg := by
  obtain ⟨-, e⟩ | ⟨-, -, -, e⟩ | ⟨-, -, e⟩ := gated_cases s cls ts r <;> rw [e] <;> rfl
@[simp] theorem gated_codec : (s.gated cls ts r).codec = s.codec := by
  obtain ⟨-, e⟩ | ⟨-, -, -, e⟩ | ⟨-, -, e⟩ := gated_cases s cls ts r <;> rw [e] <;> rfl
@[simp] theorem gated_inputs : (s.gated cls ts r).inputs = s.inputs := by
  obtain ⟨-, e⟩ | ⟨-, -, -, e⟩ | ⟨-, -, e⟩ := gated_cases s cls ts r <;> rw [e] <;> rfl
@[simp] theorem gated_ret : (s.gated cls ts r).ret = none := by
  obtain ⟨-, e⟩ | ⟨-, -, -, e⟩ | ⟨-, -, e⟩ := gated_cases s cls ts r <;> rw [e] <;> rfl

/-- R35: only a finite capacity has the overflow bit. -/
theorem setOverflow_cases {c : Capacity} (h : c.blocked = false) :
    c.setOverflow = c ∨ ∃ cap, c = .finite cap false ∧ c.setOverflow = .finite cap true := by
  cases c with
  | unbounded => exact .inl rfl
  | finite cap o =>
    obtain rfl : o = false := h
    exact .inr ⟨cap, rfl, rfl⟩

/-- R196: of the capacity at most the overflow bit changes, from clear to set. -/
theorem gated_capacity_cases :
    (s.gated cls ts r).capacity = s.capacity ∨
    ∃ cap, s.capacity = .finite cap false ∧ (s.gated cls ts r).capacity = .finite cap true := by
  obtain ⟨-, e⟩ | ⟨hb, -, -, e⟩ | ⟨-, -, e⟩ := gated_cases s cls ts r
  · exact .inl (by rw [e, quiet_capacity])
  · rw [e, overrunBuffer_capacity]
    exact setOverflow_cases hb
  · exact .inl (by rw [e, accept_capacity])

theorem gated_leaves_the_rest_alone :
    (s.gated cls ts r).cfg = s.cfg ∧ (s.gated cls ts r).runCfg = s.runCfg ∧ (s.gated cls ts r).codec = s.codec ∧
    (s.gated cls ts r).inputs = s.inputs ∧ (s.gated cls ts r).ret = none ∧
    ((s.gated cls ts r).capacity = s.capacity ∨
      ∃ cap, s.capacity = .finite cap false ∧ (s.gated cls ts r).capacity = .finite cap true) :=
  ⟨gated_cfg .., gated_runCfg .., gated_codec .., gated_inputs .., gated_ret .., gated_capacity_cases ..⟩

theorem gated_of_blocked (h : s.capacity.blocked = true) : s.gated cls ts r = s.quiet := if_pos h

theorem gated_of_full (hb : s.capacity.blocked = false) (hf : s.capacity.full s.acc.received.length = true) :
    s.gated .data ts r = s.overrunBuffer ts := by
  rw [State.gated, hb, if_neg nofun, if_pos ⟨rfl, hf⟩]

/-- A frame that a step of the Accumulator presents is the one that `on_byte` emits. -/
theorem snd_of_gated_out {F : TimedFrame TS} (h : (s.gated cls ts r).out = some F) : r.2 = some F := by
  obtain ⟨-, e⟩ | ⟨-, -, -, e⟩ | ⟨-, -, e⟩ := gated_cases s cls ts r
  · rw [e, quiet_out] at h
    cases h
  · rw [e, overrunBuffer_out] at h
    cases h
  · rwa [e, accept_out] at h

end

end

/-! ## The statements -/

/-- Settles O16: `exec_onByte` makes the split of the decoder, and completes. -/
theorem onByteDispatchesByClass : Obligations.OnByteDispatchesByClass := by
  refine fun ev s => ⟨?_, _, rfl⟩
  rw [exec_onByte, decodeEvent_eq, apply_ite (exec · s)]

/-- Settles O18: a blocked or overrunning step presents nothing, an accepted one what `on_byte` emits. -/
theorem atMostOneFramePerEvent : Obligations.AtMostOneFramePerEvent := by
  intro s ev
  refine ⟨s.gated (eventClass ev.byte) ev.ts (onByte s.cfg s.unsetTime s.acc ev), rfl, ?_⟩
  obtain ⟨hb, e⟩ | ⟨hb, hcls, -, e⟩ | ⟨hb, -, e⟩ :=
    gated_cases s (eventClass ev.byte) ev.ts (onByte s.cfg s.unsetTime s.acc ev)
  · simp [e, hb]
  · simp [e, eventClass_eq_data.mp hcls]
  · refine ⟨by simp [e], ?_⟩
    rw [e, accept_out, onByte_snd_isSome, hb, eq_self_iff_true, true_and]

/-- Settles O19: the frame `[01]` is decoded to the empty payload by either variant. -/
theorem emptyPayloadIsEmitted : Obligations.EmptyPayloadIsEmitted := by
  intro s ts te e hb hend hlen hdrop
  have hstrip : (s.acc.strip s.cfg.k.val).received = [0x01#8] := by rw [strip_received, if_pos hlen, hdrop]
  have hdec : decode s.cfg.variant [0x01#8] = .message [] := by cases s.cfg.variant <;> decide
  refine ⟨_, exec_delim_of_strip_ne_nil ts te hb hend (by simp [hstrip]), ?_⟩
  rw [accept_out, hstrip, hdec]

/-- Settles O20: what is decoded are bytes of the buffer, none of which is zero, and then COBS/R returns a Message. -/
theorem accumulatorNeverReportsAZeroByte : Obligations.AccumulatorNeverReportsAZeroByte := by
  refine fun s ev hinv => ⟨_, rfl, fun F hF => ?_⟩
  have hres := result_of_onByte (snd_of_gated_out s _ _ _ hF)
  have hz : 0x00#8 ∉ (s.acc.strip s.cfg.k.val).received := fun h => zero_notMem_of_inv hinv (mem_of_mem_strip h)
  rw [hres]
  refine ⟨mt (decode_eq_zeroByte_iff ..).mp hz, fun hv => ?_⟩
  rw [hv]
  exact decode_cobsr_message hz

/-- Settles O21: the overrun of a full buffer. -/
theorem fullBufferSetsOverflow : Obligations.FullBufferSetsOverflow := by
  intro s b ts te cap _ hcap hlen
  have hfull : s.capacity.full s.acc.received.length = true := by simp [hcap, hlen, Capacity.full]
  have hexec : exec (.data b ts te) s = .next (s.overrunBuffer ts) :=
    congrArg Host.Outcome.next (gated_of_full s ts _ (by rw [hcap]; rfl) hfull)
  rw [hexec, State.overrunBuffer, latchStart_eq, hcap]
  rfl

/-- Settles O22: a blocked step of the Accumulator is quiet, and RESET clears the bit. -/
theorem overflowIsStickyUntilReset : Obligations.OverflowIsStickyUntilReset := by
  intro s cap hcap
  have hb : s.capacity.blocked = true := by rw [hcap]; rfl
  have hquiet (cls ts r) : .next (s.gated cls ts r) = (.next s.quiet : Host.Outcome State Fault Refusal) :=
    congrArg Host.Outcome.next (gated_of_blocked s cls ts r hb)
  refine ⟨fun _ _ => hquiet .., fun _ _ _ => hquiet .., fun _ => hquiet .., s.cleared, rfl, ?_⟩
  rw [cleared_capacity, hcap]
  rfl

/-- Settles O38: each of the three is a step of the Accumulator, which leaves the rest alone. -/
theorem accumulatorInstructionsLeaveTheRestAlone : Obligations.AccumulatorInstructionsLeaveTheRestAlone := by
  rintro s i (⟨ts, te, rfl⟩ | ⟨b, ts, te, rfl⟩ | ⟨ev, rfl⟩)
  · exact ⟨_, rfl, gated_leaves_the_rest_alone ..⟩
  · exact ⟨_, rfl, gated_leaves_the_rest_alone ..⟩
  · exact ⟨_, rfl, gated_leaves_the_rest_alone ..⟩

end Sys2Proof.Machine
end

section
/-! PROOFS. The step (00_scope.md section 5): what it does with each stimulus, what its outcome can be, and the rules of the
whole machine that follow: the invariant, the stops, the configuration, and the bytes buffered. -/

namespace Sys2Proof.Machine

/-! ## What a step does with the next stimulus -/

section
variable {TS : Type} (run : Instr TS → State TS → Host.Outcome (State TS) Fault Refusal) {s : State TS}
  {rest : List (Stimulus TS)} {p : InPorts TS} (ho : s.codec.isOpen = false)
include ho

theorem stepWith_of_inputs {x : Stimulus TS} (hin : s.inputs = x :: rest) :
    stepWith run s = presentWith run x { s with inputs := rest } := by
  simp [stepWith, ho, hin]

/-- R82, R96: the operation that a sample selects runs, unless it is an Event under another configuration. -/
theorem stepWith_of_decodePorts {i : Instr TS} (hin : s.inputs = .ports p :: rest) (hd : decodePorts p = .ok i)
    (h : s.runCfg = none ∨ p.rst = true) : stepWith run s = run i { s with inputs := rest } := by
  have hgo : ¬ (p.delivers = true ∧ s.runCfg.isSome = true) := by
    obtain h | h := h
    · simp [h]
    · simp [InPorts.delivers, h]
  simp only [stepWith_of_inputs run ho hin, presentWith, if_neg hgo, hd]

theorem stepWith_event (hin : s.inputs = .ports p :: rest) (hr : p.rst = false) (hv : p.inValid = true)
    (hc : s.runCfg = none) : stepWith run s = run (.onByte p.event) { s with inputs := rest } :=
  stepWith_of_decodePorts run ho hin (by simp [decodePorts, hr, hv]) (.inl hc)

/-- U5: the refusal of an Event under another configuration than the run's. -/
theorem stepWith_event_refused (hin : s.inputs = .ports p :: rest) (hr : p.rst = false) (hv : p.inValid = true)
    (hc : s.runCfg ≠ none) : stepWith run s = .refused .configChangedMidStream := by
  rw [stepWith_of_inputs run ho hin, presentWith,
    if_pos ⟨by simp [InPorts.delivers, hr, hv], Option.isSome_iff_ne_none.mpr hc⟩]

/-- R232: RESET wins over an Event. -/
theorem stepWith_reset (hin : s.inputs = .ports p :: rest) (hr : p.rst = true) :
    stepWith run s = run .reset { s with inputs := rest } :=
  stepWith_of_decodePorts run ho hin (by simp [decodePorts, hr]) (.inr hr)

theorem stepWith_noEvent (hin : s.inputs = .ports p :: rest) (hr : p.rst = false) (hv : p.inValid = false) :
    stepWith run s = .next ({ s with inputs := rest } : State TS).quiet := by
  simp [stepWith_of_inputs run ho hin, presentWith, InPorts.delivers, decodePorts, hr, hv]

theorem stepWith_configure {cfgPrefix : BitVec 4} {v : Bool} {cfg : Config}
    (hin : s.inputs = .configure cfgPrefix v :: rest) (hd : decodeConfig cfgPrefix v = .ok cfg) :
    stepWith run s = .next (({ s with inputs := rest } : State TS).configured cfg) := by
  rw [stepWith_of_inputs run ho hin, presentWith, configure, hd]

/-- U4: the refusal of a reserved count. -/
theorem stepWith_configure_refused {cfgPrefix : BitVec 4} {v : Bool} (hin : s.inputs = .configure cfgPrefix v :: rest)
    (hp : 11 ≤ cfgPrefix.toNat) : stepWith run s = .refused .reservedPrefix := by
  rw [stepWith_of_inputs run ho hin, presentWith, configure, decodeConfig_of_le v hp]

end

/-! ## What the outcome of a step can be -/

section
variable {TS : Type} [Inhabited TS]

/-- What a step that completes makes of the state. `aside` is a step that touches the queue and the output boundary only: an
idle one, or a direct call of the Codec. `stepAt_outcome` ties it to the step. -/
inductive Transition (s : State TS) : State TS → Prop where
  | aside (rest : List (Stimulus TS)) (ret : Option DecodeResult) :
      Transition s { s with inputs := rest, out := none, ret := ret }
  | lengthCode {L : Byte} (hf : s.codec.fetch = some L) : Transition s (s.afterBlock (s.codec.body L))
  | reset {p : InPorts TS} {rest : List (Stimulus TS)} (hin : s.inputs = .ports p :: rest) (hr : p.rst = true) :
      Transition s ({ s with inputs := rest } : State TS).cleared
  | event {p : InPorts TS} {rest : List (Stimulus TS)} (hin : s.inputs = .ports p :: rest) (hr : p.rst = false)
      (hv : p.inValid = true) (hc : s.runCfg = none) :
      Transition s (({ s with inputs := rest } : State TS).gated (eventClass p.inByte) p.inTs
        (onByte s.cfg s.unsetTime s.acc p.event))
  | configured {p : BitVec 4} {v : Bool} {rest : List (Stimulus TS)} {cfg : Config}
      (hin : s.inputs = .configure p v :: rest) (hd : decodeConfig p v = .ok cfg) :
      Transition s (({ s with inputs := rest } : State TS).configured cfg)

/-- Why a step stops with a refusal; `stepAt_outcome` ties it to the step. -/
inductive Refuses (s : State TS) : Refusal → Prop where
  | reservedPrefix {p : BitVec 4} {v : Bool} {rest : List (Stimulus TS)} (hin : s.inputs = .configure p v :: rest)
      (hp : 11 ≤ p.toNat) : Refuses s .reservedPrefix
  | configChangedMidStream {p : InPorts TS} {rest : List (Stimulus TS)} (hin : s.inputs = .ports p :: rest)
      (hr : p.rst = false) (hv : p.inValid = true) (hc : s.runCfg ≠ none) : Refuses s .configChangedMidStream

/-- The outcome of a step: a transition, the fault, or a refusal. -/
theorem stepAt_outcome (s : State TS) :
    (∃ t, stepAt s = .next t ∧ Transition s t) ∨
    (s.codec.isOpen = true ∧ s.codec.fetch = none ∧ stepAt s = .fault .fetchPastEnd) ∨
    (∃ r, stepAt s = .refused r ∧ Refuses s r) := by
  obtain ⟨-, -, e⟩ | ⟨-, L, hf, e⟩ | ⟨ho, hf, e⟩ | ⟨-, p, rest, hin, hr, e⟩ | ⟨-, p, rest, hin, hr, hv, hc, e⟩ |
    ⟨-, p, rest, hin, hr, hv, hc, e⟩ | ⟨-, p, rest, -, -, -, e⟩ | ⟨-, b, input, rest, -, e⟩ | ⟨-, p, v, rest, hin, e⟩ :=
    stepAt_cases s
  · exact .inl ⟨_, e, .aside s.inputs none⟩
  · exact .inl ⟨_, e, .lengthCode hf⟩
  · exact .inr (.inl ⟨ho, hf, e⟩)
  · exact .inl ⟨_, e, .reset hin hr⟩
  · exact .inl ⟨_, e, .event hin hr hv hc⟩
  · exact .inr (.inr ⟨_, e, .configChangedMidStream hin hr hv hc⟩)
  · exact .inl ⟨_, e, .aside rest none⟩
  · exact .inl ⟨_, e, .aside rest _⟩
  · obtain ⟨hp, hc⟩ | ⟨cfg, hd, hc⟩ := configure_cases p v { s with inputs := rest }
    · exact .inr (.inr ⟨_, e.trans hc, .reservedPrefix hin hp⟩)
    · exact .inl ⟨_, e.trans hc, .configured hin hd⟩

theorem transition_of_stepAt {s t : State TS} (h : stepAt s = .next t) : Transition s t := by
  obtain ⟨t', e, ht⟩ | ⟨-, -, e⟩ | ⟨r, e, -⟩ := stepAt_outcome s
  · cases e.symm.trans h
    exact ht
  · cases e.symm.trans h
  · cases e.symm.trans h

theorem transition_of_step {s t : State} (h : step s = .next t) : Transition s t :=
  transition_of_stepAt (step_eq_stepAt ▸ h)

end

/-! ## The invariant -/

section
variable {TS : Type}

theorem holds_zero (c : Capacity) : c.holds 0 := by
  cases c
  · trivial
  · exact Nat.zero_le _

/-- R196: one byte more fits a buffer that holds its bytes and is not full. -/
theorem holds_succ {n : Nat} {c : Capacity} (h : c.holds n) (hf : c.full n ≠ true) : c.holds (n + 1) := by
  cases c with
  | unbounded => trivial
  | finite cap o =>
    have hle : n ≤ cap := h
    have hne : n ≠ cap := fun he => hf (beq_iff_eq.mpr he)
    exact Nat.lt_of_le_of_ne hle hne

/-- R132: an open invocation is between its blocks or has returned. -/
theorem codecInv_of_body {s : State TS} (L : Byte) : (s.afterBlock (s.codec.body L)).codec.Inv := by
  cases hb : s.codec.body L with
  | done r => exact .inl rfl
  | more c' =>
    obtain ⟨-, -, -, -, hlt⟩ := body_more hb
    exact .inr hlt

/-- R11, R24: what an Event makes of the Accumulator State has the invariant and fits the capacity. -/
theorem gated_keeps {s : State TS} (hacc : s.acc.Inv) (hcap : s.capacity.holds s.acc.received.length) (ev : Event TS)
    (u : TS) :
    (s.gated (eventClass ev.byte) ev.ts (onByte s.cfg u s.acc ev)).acc.Inv ∧
    (s.gated (eventClass ev.byte) ev.ts (onByte s.cfg u s.acc ev)).capacity.holds
      (s.gated (eventClass ev.byte) ev.ts (onByte s.cfg u s.acc ev)).acc.received.length := by
  obtain ⟨-, e⟩ | ⟨-, -, -, e⟩ | ⟨-, hf, e⟩ :=
    gated_cases s (eventClass ev.byte) ev.ts (onByte s.cfg u s.acc ev)
  · rw [e]
    exact ⟨hacc, hcap⟩
  · rw [e]
    exact ⟨latchStart_inv hacc ev.ts, by simpa using hcap⟩
  · rw [e]
    refine ⟨onByte_inv hacc s.cfg u ev, ?_⟩
    rw [accept_capacity, accept_acc]
    by_cases h0 : ev.byte = 0x00#8
    · rw [onByte_delim _ _ _ h0]
      exact holds_zero _
    · rw [onByte_data _ _ _ h0, append_received, latchStart_received, List.length_append]
      exact holds_succ hcap fun h => hf ⟨eventClass_eq_data.mpr h0, h⟩

/-- Log 6: what is kept beside a presented configuration is another one, of a run that has begun. -/
theorem configured_cfgInv (s : State TS) (cfg : Config) : (s.configured cfg).CfgInv := by
  intro c hc
  rw [configured_runCfg] at hc
  split at hc
  · cases hc
  · next h =>
    obtain rfl := Option.some.inj hc
    rw [not_or] at h
    exact ⟨Ne.symm h.2, by simpa [State.beforeFirstEvent] using h.1⟩

theorem transition_keeps_inv [Inhabited TS] {s t : State TS} (hs : s.Inv) (h : Transition s t) : t.Inv := by
  obtain ⟨hacc, hcap, hcodec, hcfg⟩ := hs
  cases h with
  | aside rest ret => exact ⟨hacc, hcap, hcodec, hcfg⟩
  | lengthCode hf =>
    refine ⟨by rwa [afterBlock_acc], by rwa [afterBlock_capacity, afterBlock_acc], codecInv_of_body _, ?_⟩
    rwa [State.CfgInv, afterBlock_runCfg, afterBlock_cfg, afterBlock_acc]
  | reset hin hr => exact ⟨reset_inv, holds_zero _, hcodec, cfgInv_of_none rfl⟩
  | @event p rest hin hr hv hc =>
    obtain ⟨hacc', hcap'⟩ := gated_keeps (s := { s with inputs := rest }) hacc hcap p.event s.unsetTime
    exact ⟨hacc', hcap', by rwa [gated_codec], cfgInv_of_none (by rwa [gated_runCfg])⟩
  | configured hin hd => exact ⟨hacc, hcap, hcodec, configured_cfgInv _ _⟩

/-- Settles O39: at reset nothing is buffered, no invocation is open and no run has begun. -/
theorem invariantHoldsAtReset : Obligations.InvariantHoldsAtReset :=
  ⟨reset_inv, trivial, .inl rfl, cfgInv_of_none rfl⟩

/-- Settles O40: `transition_keeps_inv` at the host's timestamps. -/
theorem everyStepKeepsTheInvariant : Obligations.EveryStepKeepsTheInvariant :=
  fun _ _ hs h => transition_keeps_inv hs (transition_of_step h)

/-- R132: under the invariant an open invocation has a byte to fetch. -/
theorem fetch_ne_none_of_inv {c : Codec} (h : c.Inv) (ho : c.isOpen = true) : c.fetch ≠ none := by
  obtain rfl | hlt := h
  · cases ho
  · rw [fetch_eq_some hlt]
    nofun

end

/-- Settles O41: the fault needs a cursor that the invariant excludes, and `Refuses` lists the refusals. -/
theorem stepStopsOnlyOnConfiguration : Obligations.StepStopsOnlyOnConfiguration := by
  rintro s ⟨-, -, hcodec, -⟩
  rw [step_eq_stepAt]
  obtain ⟨t, e, -⟩ | ⟨ho, hf, -⟩ | ⟨r, e, hr⟩ := stepAt_outcome s
  · rw [e]
    exact ⟨nofun, nofun⟩
  · exact absurd hf (fetch_ne_none_of_inv hcodec ho)
  · rw [e]
    refine ⟨nofun, ?_⟩
    rintro r' ⟨⟩
    cases hr with
    | reservedPrefix hin hp => exact .inl ⟨rfl, _, _, _, hin, hp⟩
    | configChangedMidStream hin hr hv hc => exact .inr ⟨rfl, hc, _, _, hin, hr, hv⟩

/-! ## The configuration (R30, D11) -/

theorem size_of_capacity_cases {c c' : Capacity}
    (h : c' = c ∨ ∃ cap, c = .finite cap false ∧ c' = .finite cap true) : c'.size = c.size := by
  obtain rfl | ⟨cap, rfl, rfl⟩ := h <;> rfl

/-- Settles O43: of the transitions only the presenting of a configuration writes `cfg`, and the capacity changes at most its
overflow bit. -/
theorem onlyTheHostChangesTheConfiguration : Obligations.OnlyTheHostChangesTheConfiguration := by
  intro s t h
  cases transition_of_step h with
  | aside rest ret => exact ⟨absurd rfl, rfl⟩
  | lengthCode hf => exact ⟨absurd (afterBlock_cfg ..), by rw [afterBlock_capacity]⟩
  | reset hin hr => exact ⟨absurd rfl, clearOverflow_size _⟩
  | event hin hr hv hc => exact ⟨absurd (gated_cfg ..), size_of_capacity_cases (gated_capacity_cases ..)⟩
  | configured hin hd => exact ⟨fun _ => ⟨_, _, _, hin, hd⟩, rfl⟩

theorem beforeFirstEvent_eq_false {TS : Type} {s : State TS} (h : s.acc.frameStartTime ≠ none) :
    s.beforeFirstEvent = false := by
  rw [State.beforeFirstEvent, AccState.fstValid, Option.isSome_iff_ne_none.mpr h, Bool.not_true]

theorem runConfig_congr {TS : Type} {s t : State TS} (hrun : t.runCfg = s.runCfg) (hcfg : t.cfg = s.cfg) :
    t.runConfig = s.runConfig := by
  rw [State.runConfig, State.runConfig, hrun, hcfg]

/-- Settles O57: presenting a configuration keeps the run's once the run has begun, and an Event that is processed finds
`runCfg` empty. -/
theorem oneConfigurationPerRun : Obligations.OneConfigurationPerRun := by
  refine fun s t _ h => ⟨fun hstart => ?_, fun p rest ho hin hr hv => ?_⟩
  · cases transition_of_step h with
    | aside rest ret => exact .inl rfl
    | lengthCode hf => exact .inl (runConfig_congr (afterBlock_runCfg ..) (afterBlock_cfg ..))
    | reset hin hr => exact .inr ⟨_, _, hin, hr⟩
    | event hin hr hv hc => exact .inl (runConfig_congr (gated_runCfg ..) (gated_cfg ..))
    | @configured p v rest cfg hin hd =>
      exact .inl (configured_runConfig (s := { s with inputs := rest }) (beforeFirstEvent_eq_false hstart) cfg)
  · by_cases hc : s.runCfg = none
    · obtain rfl := Host.Outcome.next.inj ((stepWith_event exec ho hin hr hv hc).symm.trans h)
      exact ⟨(runConfig_of_none hc).symm, gated_cfg .., runConfig_congr (gated_runCfg ..) (gated_cfg ..)⟩
    · cases (stepWith_event_refused exec ho hin hr hv hc).symm.trans h

/-! ## The Accumulator State along a step -/

section
variable {TS : Type} (s : State TS) (ev : Event TS) (u : TS)

/-- The start latch leaves the start time set. -/
theorem onByte_frameStartTime_ne_none (cfg : Config) (S : AccState TS) : (onByte cfg u S ev).1.frameStartTime ≠ none := by
  by_cases h0 : ev.byte = 0x00#8
  · simp [onByte_delim _ _ _ h0]
  · simp [onByte_data _ _ _ h0]

theorem gated_frameStartTime_ne_none (h : s.acc.frameStartTime ≠ none) :
    (s.gated (eventClass ev.byte) ev.ts (onByte s.cfg u s.acc ev)).acc.frameStartTime ≠ none := by
  obtain ⟨-, e⟩ | ⟨-, -, -, e⟩ | ⟨-, -, e⟩ :=
    gated_cases s (eventClass ev.byte) ev.ts (onByte s.cfg u s.acc ev)
  · rwa [e, quiet_acc]
  · simp [e]
  · rw [e, accept_acc]
    exact onByte_frameStartTime_ne_none ev u s.cfg s.acc

/-- R56: what an Event does to the buffer. -/
theorem gated_received :
    (s.gated (eventClass ev.byte) ev.ts (onByte s.cfg u s.acc ev)).acc.received = s.acc.received ∨
    (ev.byte = 0x00#8 ∧ (s.gated (eventClass ev.byte) ev.ts (onByte s.cfg u s.acc ev)).acc.received = []) ∨
    (ev.byte ≠ 0x00#8 ∧
      (s.gated (eventClass ev.byte) ev.ts (onByte s.cfg u s.acc ev)).acc.received = s.acc.received ++ [ev.byte]) := by
  obtain ⟨-, e⟩ | ⟨-, -, -, e⟩ | ⟨-, -, e⟩ :=
    gated_cases s (eventClass ev.byte) ev.ts (onByte s.cfg u s.acc ev)
  · exact .inl (by rw [e, quiet_acc])
  · exact .inl (by rw [e, overrunBuffer_acc, latchStart_received])
  · rw [e, accept_acc]
    by_cases h0 : ev.byte = 0x00#8
    · exact .inr (.inl ⟨h0, by rw [onByte_delim _ _ _ h0, flush_fst, primed_received]⟩)
    · exact .inr (.inr ⟨h0, by rw [onByte_data _ _ _ h0, append_received, latchStart_received]⟩)

/-- What a transition does to the buffer. -/
theorem transition_received [Inhabited TS] {s t : State TS} (h : Transition s t) :
    t.acc.received = s.acc.received ∨
    (t.acc.received = [] ∧ ∃ p rest, s.inputs = .ports p :: rest ∧
      (p.rst = true ∨ (p.inValid = true ∧ p.inByte = 0x00#8))) ∨
    (∃ p rest, s.inputs = .ports p :: rest ∧ p.rst = false ∧ p.inValid = true ∧ p.inByte ≠ 0x00#8 ∧
      t.acc.received = s.acc.received ++ [p.inByte]) := by
  cases h with
  | aside rest ret => exact .inl rfl
  | lengthCode hf => exact .inl (by rw [afterBlock_acc])
  | reset hin hr => exact .inr (.inl ⟨rfl, _, _, hin, .inl hr⟩)
  | @event p rest hin hr hv hc =>
    obtain h | ⟨h0, h⟩ | ⟨h0, h⟩ := gated_received { s with inputs := rest } p.event s.unsetTime
    · exact .inl h
    · exact .inr (.inl ⟨h, _, _, hin, .inr ⟨hv, h0⟩⟩)
    · exact .inr (.inr ⟨_, _, hin, hr, hv, h0, h⟩)
  | configured hin hd => exact .inl rfl

end

/-- Settles O44: only RESET unsets the start time; the start latch and the flush set it. -/
theorem startTimeStaysSetUntilReset : Obligations.StartTimeStaysSetUntilReset := by
  intro s t h hstart
  cases transition_of_step h with
  | aside rest ret => exact .inl hstart
  | lengthCode hf => exact .inl (by rwa [afterBlock_acc])
  | reset hin hr => exact .inr ⟨_, _, hin, hr⟩
  | @event p rest hin hr hv hc =>
    exact .inl (gated_frameStartTime_ne_none { s with inputs := rest } p.event s.unsetTime hstart)
  | configured hin hd => exact .inl hstart

/-- Settles O45: `transition_received`, without what cleared the buffer. -/
theorem receivedIsOnlyAppendedToOrCleared : Obligations.ReceivedIsOnlyAppendedToOrCleared := by
  intro s t h
  obtain h | ⟨h, -⟩ | h := transition_received (transition_of_step h)
  · exact .inl h
  · exact .inr (.inl h)
  · exact .inr (.inr h)

/-- Settles O52: of the three cases of `transition_received` only the second leaves none of the bytes. -/
theorem receivedIsClearedOnlyByDelimOrReset : Obligations.ReceivedIsClearedOnlyByDelimOrReset := by
  intro s t h hne hnil
  obtain h | ⟨-, h⟩ | ⟨p, rest, -, -, -, -, h⟩ := transition_received (transition_of_step h)
  · exact absurd (h.symm.trans hnil) hne
  · exact h
  · simp [hnil] at h

/-! ## Fetch and dispatch -/

/-- An Event that is processed runs as the DELIM or DATA instruction that it decodes to. -/
theorem step_event {s : State} {ev : Event Timestamp} {rest : List Stimulus} {i : Instr} (ho : s.codec.isOpen = false)
    (hin : s.inputs = .ports (portsOfEvent ev) :: rest) (hd : decodeInstr (.event ev) = .ok i) (hc : s.runCfg = none) :
    step s = exec i { s with inputs := rest } := by
  obtain rfl := Except.ok.inj hd
  obtain ⟨hexec, -⟩ := onByteDispatchesByClass ev { s with inputs := rest }
  exact (stepWith_event exec ho hin rfl rfl hc).trans hexec

/-- Log 15: a table word that decodes is an Event of the event space. -/
theorem decodeEvent_of_decodeTableWord {nbits w : Nat} {i : Instr} (h : decodeTableWord nbits w = some i) :
    decodeEvent (eventOfTableWord w) = i := by
  rw [decodeTableWord] at h
  split at h
  · exact Option.some.inj h
  · cases h

/-- Settles O7: the length code at the cursor, or what the next stimulus selects. -/
theorem stepRunsTheDecodedInstruction : Obligations.StepRunsTheDecodedInstruction := by
  refine ⟨fun s L i ho hf hd => ?_, fun s p rest i ho hin hd hc => stepWith_of_decodePorts exec ho hin hd hc,
    fun s ev rest i ho hin hd hc => step_event ho hin hd hc, fun s b input rest i ho hin hd => ?_, fun s w i hw => ?_⟩
  · obtain rfl := Except.ok.inj hd
    simp only [step, stepWith, ho, hf, if_true]
  · obtain rfl := Except.ok.inj hd
    exact stepWith_of_inputs exec ho hin
  · exact step_event (s := s.withFetchWord 8 w) rfl rfl (congrArg Except.ok (decodeEvent_of_decodeTableWord hw)) rfl

/-- Settles O8: a sample that selects no operation, and an empty queue. -/
theorem idleStepChangesNothing : Obligations.IdleStepChangesNothing := by
  refine ⟨fun s p rest ho hin hr hv => stepWith_noEvent exec ho hin hr hv, fun s ho hin => ?_⟩
  simp [step, stepWith, ho, hin, State.quiet]

/-- Settles O9: with `rst` asserted the sample selects RESET. -/
theorem resetWinsOverAnEvent : Obligations.ResetWinsOverAnEvent := by
  intro s p rest ho hin hr
  have hstep : step s = exec .reset { s with inputs := rest } := stepWith_reset exec ho hin hr
  exact ⟨hstep, _, hstep, rfl, rfl, rfl, rfl⟩

/-- Settles O56: the Event is refused, and RESET is taken under any `runCfg`. -/
theorem eventUnderAnotherConfigurationIsRefused : Obligations.EventUnderAnotherConfigurationIsRefused :=
  fun _ _ _ ho hin hc => ⟨fun hr hv => stepWith_event_refused exec ho hin hr hv hc,
    fun hr => ⟨_, stepWith_reset exec ho hin hr, rfl, rfl, rfl⟩⟩

/-- Settles O10: the two outcomes of presenting a configuration, and what is kept before and after the first Event. -/
theorem hostPresentsTheConfiguration : Obligations.HostPresentsTheConfiguration := by
  intro s p v rest ho hin
  refine ⟨fun hp => stepWith_configure_refused exec ho hin hp, fun cfg hd hstart => ?_, fun cfg hd hstart => ?_⟩
  · have hbefore : ({ s with inputs := rest } : State).beforeFirstEvent = true := by
      simp [State.beforeFirstEvent, AccState.fstValid, hstart]
    rw [step, stepWith_configure exec ho hin hd, State.configured, if_pos (.inl hbefore)]
  · have hbegun : ({ s with inputs := rest } : State).beforeFirstEvent = false := beforeFirstEvent_eq_false hstart
    rw [step, stepWith_configure exec ho hin hd, State.configured]
    simp only [hbegun, Bool.false_eq_true, false_or]
    rfl

/-! ## RESET -/

/-- Settles O35: `State.cleared`, for each form of the capacity. -/
theorem resetRestoresTheResetState : Obligations.ResetRestoresTheResetState := by
  have hexec (s : State) : exec .reset s = .next s.cleared := rfl
  refine fun s => ⟨fun hcap => ?_, fun cap o hcap => ?_⟩
  · rw [hexec, State.cleared, hcap]
    rfl
  · rw [hexec, State.cleared, hcap]
    rfl

/-- Settles O36: the reset state as defined. -/
theorem resetValues : Obligations.ResetValues := ⟨rfl, rfl, rfl, rfl, rfl, rfl⟩

/-- Settles O53: the lemmas of Laws/Step.lean. -/
theorem hostMachineIsTheMachineAtTheDefaultTimestamp : Obligations.HostMachineIsTheMachineAtTheDefaultTimestamp :=
  ⟨fun _ _ => by rw [exec_eq_execAt], fun _ => by rw [step_eq_stepAt], rfl⟩

end Sys2Proof.Machine
end

section
/-! PROOFS. Renaming timestamps (R10, D2): `on_byte`, every instruction, the step and every run commute with it, and every
state over any timestamp type is a renaming of one over the host's. -/

namespace Sys2Proof.Machine

section
variable {TS TS' : Type} (f : TS → TS')

/-! ## One Event -/

/-- `value(unset)` may be renamed with the rest. -/
theorem frame_map_unset (S : AccState TS) (v : Variant) (u : TS) :
    (accMap f S).frame v (f u) = (S.frame v u).map (frameMap f) := by
  unfold AccState.frame
  split
  · next h =>
    rw [accMap_received] at h
    simp [h, frameMap]
  · next h =>
    rw [accMap_received] at h
    simp [h]

/-- `on_byte` commutes with the renaming if what the flush emits does. -/
theorem onByte_map_of_frame_map {cfg : Config} {u : TS} {u' : TS'} {S : AccState TS} {ev : Event TS}
    (hframe : (accMap f ((S.latchStart ev.ts).strip cfg.k.val)).frame cfg.variant u' =
      (((S.latchStart ev.ts).strip cfg.k.val).frame cfg.variant u).map (frameMap f)) :
    onByte cfg u' (accMap f S) (eventMap f ev) =
      (accMap f (onByte cfg u S ev).1, (onByte cfg u S ev).2.map (frameMap f)) := by
  by_cases h0 : ev.byte = 0x00#8
  · rw [onByte_delim cfg u S h0, onByte_delim cfg u' (accMap f S) (ev := eventMap f ev) h0, eventMap_ts, latchStart_map,
      AccState.flush, AccState.flush, strip_map, hframe, primed_map]
  · rw [onByte_data cfg u S h0, onByte_data cfg u' (accMap f S) (ev := eventMap f ev) h0, eventMap_ts, eventMap_te,
      eventMap_byte, latchStart_map, append_map]
    rfl

/-- Under the invariant a stripped buffer that is not empty has both its times, so `value(unset)` is not read (R169). -/
theorem onByte_map_of_inv {S : AccState TS} (h : S.Inv) (cfg : Config) (u : TS) (u' : TS') (ev : Event TS) :
    onByte cfg u' (accMap f S) (eventMap f ev) =
      (accMap f (onByte cfg u S ev).1, (onByte cfg u S ev).2.map (frameMap f)) := by
  refine onByte_map_of_frame_map f (frame_map f _ _ u u' fun hne => ⟨by simp, ?_⟩)
  have hne' : S.received ≠ [] := by
    rintro hnil
    rw [strip_latchStart_received] at hne
    exact hne (strip_received_eq_nil.mpr (.inl hnil))
  rw [strip_frameEndTime, latchStart_frameEndTime]
  exact frameEndTime_ne_none_of_inv h hne'

/-- Settles O46: the frame takes the renamed `value(unset)`, so nothing is asked of the state. -/
theorem timestampsAreOnlyCopied : Obligations.TimestampsAreOnlyCopied :=
  fun _ _ f _ u _ _ => onByte_map_of_frame_map f (frame_map_unset f _ _ u)

/-! ## Instructions and steps -/

@[simp] theorem accMap_inv {S : AccState TS} : (accMap f S).Inv ↔ S.Inv := by
  simp [AccState.Inv, AccState.fetValid, AccState.fstValid]

/-- DATA does not flush, so it commutes with the renaming whatever its byte is. -/
theorem execData_map (b : Byte) (ts te : TS) (s : State TS) :
    execData b (f ts) (f te) (stateMap f s) = outcomeMap f (execData b ts te s) := by
  have hr : ((stateMap f s).acc.latchStart (f ts)).append b (f te) = accMap f ((s.acc.latchStart ts).append b te) := by
    rw [stateMap_acc, latchStart_map, append_map]
  rw [execData, hr]
  exact congrArg Host.Outcome.next (gated_map f s .data ts ((s.acc.latchStart ts).append b te, none))

section
variable [Inhabited TS] [Inhabited TS'] {s : State TS}

theorem execOnByte_map (h : s.acc.Inv) (ev : Event TS) :
    execOnByte (eventMap f ev) (stateMap f s) = outcomeMap f (execOnByte ev s) := by
  rw [execOnByte, stateMap_acc, onByte_map_of_inv f h (stateMap f s).cfg s.unsetTime, eventMap_byte, eventMap_ts, gated_map]
  rfl

theorem execAt_map (h : s.acc.Inv) (i : Instr TS) :
    execAt (instrMap f i) (stateMap f s) = outcomeMap f (execAt i s) := by
  cases i with
  | delim ts te => exact execOnByte_map f h ⟨0x00#8, ts, te⟩ -- which runs as DELIM
  | data b ts te => exact execData_map f b ts te s
  | lenZero => exact congrArg Host.Outcome.next (afterBlock_map f s _)
  | lenMax => exact congrArg Host.Outcome.next (afterBlock_map f s _)
  | lenChunk L => exact congrArg Host.Outcome.next (afterBlock_map f s _)
  | decodeCobs input => exact congrArg Host.Outcome.next (returning_map f s _)
  | decodeCobsr input => exact congrArg Host.Outcome.next (returning_map f s _)
  | onByte ev => exact execOnByte_map f h ev
  | reset => exact congrArg Host.Outcome.next (cleared_map f s)

theorem presentWith_map (h : s.acc.Inv) (x : Stimulus TS) :
    presentWith execAt (stimulusMap f x) (stateMap f s) = outcomeMap f (presentWith execAt x s) := by
  cases x with
  | ports p =>
    simp only [stimulusMap, presentWith, delivers_map, stateMap_runCfg, decodePorts_map]
    split
    · rfl
    · cases decodePorts p with
      | ok i => exact execAt_map f h i
      | error e => rfl
  | call v input =>
    simp only [stimulusMap, presentWith]
    rw [← decodeCall_map f, execAt_map f h]
  | configure p v => exact configure_map f p v s

theorem stepAt_map (h : s.acc.Inv) : stepAt (stateMap f s) = outcomeMap f (stepAt s) := by
  by_cases ho : s.codec.isOpen = true
  · simp only [stepAt, stepWith, stateMap_codec, ho, if_true]
    cases s.codec.fetch with
    | none => rfl
    | some L => exact (congrArg (execAt · _) (decodeLengthCode_map f L)).symm.trans (execAt_map f h _)
  · have hclosed : s.codec.isOpen = false := by simpa using ho
    cases hin : s.inputs with
    | nil => simp [stepAt, stepWith, hclosed, hin, quiet_map, outcomeMap]
    | cons x rest =>
      have hin' : (stateMap f s).inputs = stimulusMap f x :: rest.map (stimulusMap f) := by
        rw [stateMap_inputs, hin, List.map_cons]
      rw [stepAt, stepAt, stepWith_of_inputs execAt (s := stateMap f s) hclosed hin', stepWith_of_inputs execAt hclosed hin]
      exact presentWith_map f (s := { s with inputs := rest }) h x

end

/-- Settles O54: instruction by instruction, and for a step by what it runs. -/
theorem renamingTimestampsCommutesWithTheMachine : Obligations.RenamingTimestampsCommutesWithTheMachine :=
  fun _ _ _ _ f _ h => ⟨execAt_map f h, stepAt_map f h⟩

end

/-! ## Runs -/

section
variable {TS TS' : Type} [Inhabited TS] [Inhabited TS'] (f : TS → TS')

/-- Every run, its stops included, commutes with the renaming: the invariant is kept along it. -/
theorem run_map (m : Nat) {s : State TS} (h : s.Inv) :
    (coreAt TS').run m (stateMap f s) = outcomeMap f ((coreAt TS).run m s) := by
  induction m generalizing s with
  | zero => rfl
  | succ m ih =>
    have hmap : (coreAt TS').step (stateMap f s) = outcomeMap f (stepAt s) := stepAt_map f h.1
    cases hs : stepAt s with
    | next t =>
      rw [hs] at hmap
      exact (run_next m hmap).trans ((ih (transition_keeps_inv h (transition_of_stepAt hs))).trans
        (congrArg (outcomeMap f) (run_next (M := coreAt TS) m hs).symm))
    | fault r =>
      rw [hs] at hmap
      exact (run_fault m hmap).trans (congrArg (outcomeMap f) (run_fault (M := coreAt TS) m hs).symm)
    | refused r =>
      rw [hs] at hmap
      exact (run_refused m hmap).trans (congrArg (outcomeMap f) (run_refused (M := coreAt TS) m hs).symm)

/-- The machine of the host's interface with its step as an argument. -/
def coreWith (run : State → Host.Outcome State Fault Refusal) : Host.Core := ⟨State, Fault, Refusal, run, State.reset⟩

theorem coreWith_run {run : State → Host.Outcome State Fault Refusal} (h : run = stepAt) (m : Nat) (s : State) :
    (coreWith run).run m s = (coreAt Timestamp).run m s := by
  subst h
  rfl

theorem core_run (m : Nat) (s : State) : core.run m s = (coreAt Timestamp).run m s := coreWith_run step_eq_stepAt m s

end

/-! ## The timestamps of a state -/

section
variable {TS TS' : Type}

/-- The timestamps that a stimulus carries. -/
def stimulusTimes : Stimulus TS → List TS
  | .ports p => [p.inTs, p.inTe]
  | .call _ _ => []
  | .configure _ _ => []

/-- The timestamps that a Timed Frame carries. -/
def frameTimes (F : TimedFrame TS) : List TS := [F.startTime, F.endTime]

/-- Every timestamp in a state. -/
def stateTimes (s : State TS) : List TS :=
  s.acc.frameStartTime.toList ++ s.acc.frameEndTime.toList ++ s.inputs.flatMap stimulusTimes ++
    s.out.toList.flatMap frameTimes ++ s.emitted.flatMap frameTimes

theorem stimulusMap_eq_self {h : TS → TS} {x : Stimulus TS} (hx : ∀ t ∈ stimulusTimes x, h t = t) :
    stimulusMap h x = x := by
  cases x with
  | ports p =>
    obtain ⟨rst, v, b, ts, te⟩ := p
    rw [stimulusMap, portsMap, hx ts (by simp [stimulusTimes]), hx te (by simp [stimulusTimes])]
  | call v input => rfl
  | configure p v => rfl

theorem frameMap_eq_self {h : TS → TS} {F : TimedFrame TS} (hF : ∀ t ∈ frameTimes F, h t = t) : frameMap h F = F := by
  rw [frameMap, hF F.startTime (by simp [frameTimes]), hF F.endTime (by simp [frameTimes])]

theorem option_map_eq_self {α : Type} {g : α → α} {o : Option α} (h : ∀ a ∈ o.toList, g a = a) : o.map g = o := by
  cases o with
  | none => rfl
  | some a => exact congrArg some (h a (by simp))

theorem list_map_eq_self {α : Type} {g : α → α} {l : List α} (h : ∀ a ∈ l, g a = a) : l.map g = l :=
  (List.map_congr_left h).trans l.map_id

/-- A renaming that keeps the timestamps of a state keeps the state. -/
theorem stateMap_eq_self {h : TS → TS} {s : State TS} (hs : ∀ t ∈ stateTimes s, h t = t) : stateMap h s = s := by
  simp only [stateTimes, List.mem_append, List.mem_flatMap, or_imp, forall_and, forall_exists_index, and_imp] at hs
  obtain ⟨⟨⟨⟨hstart, hend⟩, hin⟩, hout⟩, hem⟩ := hs
  rw [stateMap, accMap, option_map_eq_self hstart, option_map_eq_self hend,
    list_map_eq_self fun x hx => stimulusMap_eq_self fun t ht => hin t x hx ht,
    option_map_eq_self fun F hF => frameMap_eq_self fun t ht => hout t F hF ht,
    list_map_eq_self fun F hF => frameMap_eq_self fun t ht => hem t F hF ht]

theorem stateMap_stateMap {TS'' : Type} (f : TS' → TS'') (g : TS → TS') (s : State TS) :
    stateMap f (stateMap g s) = stateMap (f ∘ g) s := by
  have hstim : stimulusMap f ∘ stimulusMap g = stimulusMap (f ∘ g) := by
    funext x
    cases x <;> rfl
  have hframe : frameMap f ∘ frameMap g = frameMap (f ∘ g) := rfl
  simp [stateMap, accMap, hstim, hframe]

theorem stateMap_inv (f : TS → TS') {s : State TS} (h : s.Inv) : (stateMap f s).Inv := by
  obtain ⟨hacc, hcap, hcodec, hcfg⟩ := h
  refine ⟨(accMap_inv f).mpr hacc, hcap, hcodec, fun c hc => ?_⟩
  obtain ⟨hne, hbegun⟩ := hcfg c hc
  exact ⟨hne, by simpa [AccState.fstValid] using hbegun⟩

/-- Finitely many timestamps can be numbered: the place in a list, and the entry at a place. -/
theorem exists_numbering [Inhabited TS] (times : List TS) :
    ∃ (f : Nat → TS) (g : TS → Nat), ∀ t ∈ times, f (g t) = t := by
  classical
  refine ⟨fun n => times.getD n default, fun t => times.idxOf t, fun t ht => ?_⟩
  simp [List.getD_eq_getElem?_getD, List.idxOf_lt_length_of_mem ht]

end

/-- Settles O55: number the timestamps of the state; the run of `core` from the numbered state is renamed back. -/
theorem everyTimestampTypeRenamesTheHostMachine : Obligations.EveryTimestampTypeRenamesTheHostMachine := by
  intro TS _ s hinv
  obtain ⟨f, g, hfg⟩ := exists_numbering (stateTimes s)
  have hs : stateMap f (stateMap g s) = s := (stateMap_stateMap f g s).trans (stateMap_eq_self hfg)
  have hinv₀ := stateMap_inv g hinv
  refine ⟨f, stateMap g s, hinv₀, hs, fun m => ?_⟩
  have hrun := run_map f m hinv₀
  rw [hs] at hrun
  exact hrun.trans (congrArg (outcomeMap f) (core_run m _).symm)

end Sys2Proof.Machine
end

section
/-! PROOFS. Runs of Events (00_scope.md R18): the machine as the fold of `on_byte`, the results and the times of the frames of
a run, and a framed payload. -/

namespace Sys2Proof.Machine

/-! ## The machine as the fold of `on_byte` -/

/-- R169: under the invariant `on_byte` does not read `value(unset)`. -/
theorem onByte_unset_irrelevant {TS : Type} {S : AccState TS} (h : S.Inv) (cfg : Config) (u u' : TS) (ev : Event TS) :
    onByte cfg u' S ev = onByte cfg u S ev := by
  have hid (S : AccState TS) : accMap id S = S := by simp [accMap]
  have hframe : (frameMap id : TimedFrame TS → TimedFrame TS) = id := rfl
  have hmap := onByte_map_of_inv id h cfg u u' ev
  rwa [hid, hid, hframe, Option.map_id] at hmap

/-- The step of an Event that is accepted is one application of `on_byte`. -/
theorem step_accepts_event {s : State} {ev : Event Timestamp} {rest : List Stimulus} (hinv : s.Inv)
    (hcap : s.capacity = .unbounded) (hcodec : s.codec = Codec.idle) (hrun : s.runCfg = none)
    (hin : s.inputs = .ports (portsOfEvent ev) :: rest) (u : Timestamp) :
    step s = .next (({ s with inputs := rest } : State).accept (onByte s.cfg u s.acc ev)) := by
  have hstep : step s = exec (.onByte ev) { s with inputs := rest } :=
    stepWith_event exec (by rw [hcodec, idle_isOpen]) hin rfl rfl hrun
  rw [hstep, ← onByte_unset_irrelevant hinv.1 s.cfg u s.unsetTime]
  exact congrArg Host.Outcome.next (gated_of_accepts (s := { s with inputs := rest }) ev.ts _
    (by rw [hcap, unbounded_blocked]) fun _ => by rw [hcap, unbounded_full])

/-- Settles O47: by induction on the Events, one accepted step for each. -/
theorem runIsTheFoldOfOnByte : Obligations.RunIsTheFoldOfOnByte := by
  intro s evs u hinv hcap hcodec hrun hin
  induction evs generalizing s with
  | nil => exact ⟨s, rfl, rfl, by simp [runEvents], rfl, hin⟩
  | cons ev evs ih =>
    have hstep := step_accepts_event hinv hcap hcodec hrun hin u
    obtain ⟨t, ht, hacc, hem, hcfg, hnil⟩ :=
      ih _ (everyStepKeepsTheInvariant s _ hinv hstep) hcap hcodec hrun rfl
    refine ⟨t, (run_succ evs.length hstep).trans ht, hacc, ?_, hcfg, hnil⟩
    rw [hem, accept_emitted, List.append_assoc]
    rfl

/-- R235: the state of an unbounded buffer after the start-up order, with `rest` still to be presented. -/
def State.startedUp (s : State) (cfg : Config) (rest : List Stimulus) : State :=
  { s with inputs := rest, cfg := cfg, runCfg := none, acc := AccState.reset, out := none, ret := none }

/-- R235: the configuration and then RESET, one step each. -/
theorem run_startUp {s : State} {p : BitVec 4} {v : Bool} {cfg : Config} {r : InPorts} {rest : List Stimulus}
    (hcap : s.capacity = .unbounded) (hopen : s.codec.isOpen = false) (hd : decodeConfig p v = .ok cfg)
    (hr : r.rst = true) (hin : s.inputs = .configure p v :: .ports r :: rest) (m : Nat) :
    core.run (m + 2) s = core.run m (s.startedUp cfg rest) := by
  have hconf := stepWith_configure exec hopen hin hd
  have hreset := stepWith_reset exec (s := ({ s with inputs := .ports r :: rest } : State).configured cfg) hopen rfl hr
  rw [run_succ (m + 1) hconf, run_succ m hreset, State.cleared, configured_capacity, hcap, State.startedUp, hcap]
  rfl

/-- Settles O58: two steps to the reset state under the new configuration, and the fold from there. -/
theorem startUpOrderBeginsANewRun : Obligations.StartUpOrderBeginsANewRun := by
  intro s p v cfg r evs u hcap hcodec hd hr hin
  have hstart := run_startUp hcap (by rw [hcodec, idle_isOpen]) hd hr hin
  have hinv : (s.startedUp cfg (evs.map (fun ev => .ports (portsOfEvent ev)))).Inv :=
    ⟨reset_inv, holds_zero _, .inl hcodec, cfgInv_of_none rfl⟩
  obtain ⟨t, ht, hacc, hem, hcfg, -⟩ := runIsTheFoldOfOnByte _ evs u hinv hcap hcodec rfl rfl
  exact ⟨hstart 0, t, (hstart evs.length).trans ht, hacc, hem, hcfg⟩

/-! ## The results of a run -/

section
variable {TS : Type} {cfg : Config} {u : TS}

/-- R155 to R158: the result for one frame is that of the stripped buffer, if the strip leaves something. -/
theorem resultOfFrame_received (cfg : Config) (S : AccState TS) :
    resultOfFrame cfg S.received =
      if (S.strip cfg.k.val).received = [] then none else some (decode cfg.variant (S.strip cfg.k.val).received) := by
  have hnil := strip_received_eq_nil (S := S) (k := cfg.k.val)
  rw [← List.length_eq_zero_iff (l := S.received)] at hnil
  rw [resultOfFrame, if_congr hnil rfl rfl]
  split
  · rfl
  · next h =>
    rw [not_or] at h
    rw [strip_received]
    by_cases hlt : S.received.length < cfg.k.val
    · rw [if_neg (by omega), if_neg (by omega)]
    · rw [if_pos (by omega), if_pos (by omega)]

theorem result_of_delim {S : AccState TS} {ev : Event TS} (h0 : ev.byte = 0x00#8) :
    (onByte cfg u S ev).2.map TimedFrame.result = resultOfFrame cfg S.received := by
  rw [onByte_delim _ _ _ h0, flush_snd, AccState.frame, strip_latchStart_received, resultOfFrame_received]
  split
  · next h => rw [if_neg (List.length_pos_iff.mp h)]; rfl
  · next h => rw [if_pos (by simpa using h)]; rfl

/-- The results of a run from any state: what is buffered belongs to the first frame. -/
theorem runEvents_results (S : AccState TS) (evs : List (Event TS)) :
    (runEvents cfg u S evs).2.map TimedFrame.result =
      (framesOf S.received (evs.map Event.byte)).filterMap (resultOfFrame cfg) ∧
    (runEvents cfg u S evs).1.received = unterminated S.received (evs.map Event.byte) := by
  induction evs generalizing S with
  | nil => exact ⟨rfl, rfl⟩
  | cons ev evs ih =>
    obtain ⟨hres, hrec⟩ := ih (onByte cfg u S ev).1
    rw [runEvents, List.map_append, hres, hrec, List.map_cons, framesOf, unterminated]
    by_cases h0 : ev.byte = 0x00#8
    · have hfirst := result_of_delim (cfg := cfg) (u := u) (S := S) h0
      have hnext : (onByte cfg u S ev).1.received = [] := by rw [onByte_delim _ _ _ h0, flush_fst, primed_received]
      rw [if_pos h0, if_pos h0, hnext, List.filterMap_cons, ← hfirst]
      cases (onByte cfg u S ev).2 <;> exact ⟨rfl, rfl⟩
    · rw [if_neg h0, if_neg h0, onByte_data _ _ _ h0, append_received, latchStart_received]
      exact ⟨rfl, rfl⟩

/-- Settles O48: `runEvents_results` from the reset state, where nothing is buffered. -/
theorem eachFrameIsDecodedByItself : Obligations.EachFrameIsDecodedByItself :=
  fun _ _ _ evs => runEvents_results AccState.reset evs

/-! ## A framed payload -/

theorem framesOf_delimited {cur bs : List Byte} (hz : 0x00#8 ∉ bs) :
    framesOf cur (bs ++ [0x00#8]) = [cur ++ bs] ∧ unterminated cur (bs ++ [0x00#8]) = [] := by
  induction bs generalizing cur with
  | nil => simp [framesOf, unterminated]
  | cons b bs ih =>
    rw [List.mem_cons, not_or] at hz
    obtain ⟨hb, hbs⟩ := hz
    obtain ⟨hframes, hrest⟩ := ih (cur := cur ++ [b]) hbs
    rw [List.cons_append, framesOf, unterminated, if_neg (Ne.symm hb), if_neg (Ne.symm hb), hframes, hrest]
    simp

/-- The result of a frame of `k` bytes and a buffer that decodes is its payload. -/
theorem resultOfFrame_append {pre b p : List Byte} (hpre : pre.length = cfg.k.val) (hb : b ≠ [])
    (hdec : decode cfg.variant b = .message p) : resultOfFrame cfg (pre ++ b) = some (.message p) := by
  have hpos := List.length_pos_iff.mpr hb
  have hlen : (pre ++ b).length = cfg.k.val + b.length := by rw [List.length_append, hpre]
  rw [resultOfFrame, if_neg (by omega), if_pos (by omega), ← hpre, List.drop_left, hdec]

/-- A frame of `k` bytes and a buffer that decodes comes out of the Accumulator as its payload. -/
theorem runEvents_of_framed {S : AccState TS} {pre b p : List Byte} {evs : List (Event TS)} (hrec : S.received = [])
    (hpre : pre.length = cfg.k.val) (hz : 0x00#8 ∉ pre) (hb : b ≠ []) (hdec : decode cfg.variant b = .message p)
    (hbytes : evs.map Event.byte = pre ++ b ++ [0x00#8]) :
    (runEvents cfg u S evs).2.map TimedFrame.result = [.message p] ∧ (runEvents cfg u S evs).1.received = [] := by
  have hz' : 0x00#8 ∉ pre ++ b := List.mem_append.not.mpr (not_or.mpr ⟨hz, zero_notMem_of_decode hdec⟩)
  obtain ⟨hframes, hrest⟩ := framesOf_delimited (cur := []) hz'
  obtain ⟨hres, hleft⟩ := runEvents_results (cfg := cfg) (u := u) S evs
  rw [hbytes, hrec] at hres hleft
  rw [hres, hleft, hframes, hrest, List.nil_append, List.filterMap_cons, resultOfFrame_append hpre hb hdec]
  exact ⟨rfl, rfl⟩

/-- Settles O51: for either variant its round trip. -/
theorem framedPayloadIsReceived : Obligations.FramedPayloadIsReceived := by
  intro TS cfg u S pre p evs hrec hpre hz hbytes
  cases hv : cfg.variant with
  | cobs =>
    rw [hv] at hbytes
    exact runEvents_of_framed hrec hpre hz (encCobs_ne_nil p) (hv ▸ cobsRoundTrip p) hbytes
  | cobsr =>
    rw [hv] at hbytes
    exact runEvents_of_framed hrec hpre hz (encCobsrFrom_ne_nil [] p) (hv ▸ cobsrRoundTrip p) hbytes

/-! ## The times of the frames -/

theorem runEvents_append (S : AccState TS) (evs evs' : List (Event TS)) :
    runEvents cfg u S (evs ++ evs') =
      ((runEvents cfg u (runEvents cfg u S evs).1 evs').1,
        (runEvents cfg u S evs).2 ++ (runEvents cfg u (runEvents cfg u S evs).1 evs').2) := by
  induction evs generalizing S with
  | nil => rfl
  | cons ev evs ih =>
    rw [List.cons_append, runEvents, ih, runEvents, List.append_assoc]

/-- DATA events emit nothing; the first sets a start time that is unset, and the last sets the end time. -/
theorem runEvents_datas (S : AccState TS) {datas : List (Event TS)} {last : Event TS}
    (h : ∀ ev ∈ datas, ev.byte ≠ 0x00#8) (hlast : last.byte ≠ 0x00#8) :
    runEvents cfg u S (datas ++ [last]) =
      (⟨S.received ++ (datas ++ [last]).map Event.byte,
        some (S.frameStartTime.getD ((datas ++ [last]).head (by simp)).ts), some last.te⟩, []) := by
  induction datas generalizing S with
  | nil => simp [runEvents, onByte_data _ _ _ hlast, latchStart_eq, AccState.append]
  | cons d datas ih =>
    rw [List.forall_mem_cons] at h
    obtain ⟨hd, hdatas⟩ := h
    simp [runEvents, ih _ hdatas, onByte_data _ _ _ hd]

/-- The DELIM event after the DATA events of a frame that is not absorbed emits it with these times. -/
theorem runEvents_datas_delim {S : AccState TS} {datas : List (Event TS)} {last d : Event TS}
    (h : ∀ ev ∈ datas, ev.byte ≠ 0x00#8) (hlast : last.byte ≠ 0x00#8) (hd : d.byte = 0x00#8)
    (hk : datas.length + 1 ≠ cfg.k.val) (hrec : S.received = []) :
    ∃ r, (runEvents cfg u S (datas ++ [last, d])).2 =
      [⟨r, S.frameStartTime.getD ((datas ++ [last]).head (by simp)).ts, last.te⟩] := by
  have hsplit : datas ++ [last, d] = datas ++ [last] ++ [d] := by simp
  have hstrip : ((⟨S.received ++ (datas ++ [last]).map Event.byte,
      some (S.frameStartTime.getD ((datas ++ [last]).head (by simp)).ts), some last.te⟩ : AccState TS).strip
        cfg.k.val).received ≠ [] := by
    rw [Ne, strip_received_eq_nil, not_or]
    exact ⟨by simp, by simpa [hrec] using hk⟩
  rw [hsplit, runEvents_append, runEvents_datas S h hlast, runEvents, runEvents, onByte_delim _ _ _ hd,
    flush_of_strip_ne_nil u d.ts rfl hstrip]
  exact ⟨_, rfl⟩

/-- Settles O49: the DELIM event before the frame, or reset, leaves nothing buffered and its own time or none. -/
theorem frameTimesComeFromTheseEvents : Obligations.FrameTimesComeFromTheseEvents := by
  intro TS cfg u datas last d h hlast hd hk
  refine ⟨fun S d₀ hd₀ => ?_, runEvents_datas_delim h hlast hd hk rfl⟩
  obtain ⟨r, hr⟩ := runEvents_datas_delim (u := u) (S := AccState.primed d₀.ts) h hlast hd hk rfl
  refine ⟨r, ?_⟩
  rw [List.cons_append, runEvents, onByte_delim _ _ _ hd₀, flush_fst, hr]
  rfl

end

/-! ## The order of the times (D12) -/

section
variable {cfg : Config} {u : Timestamp} {S : AccState Timestamp}

/-- The start time is not after the end time, nor after the end time of an Event still to come. -/
def AccState.OrderedBefore (S : AccState Timestamp) (evs : List (Event Timestamp)) : Prop :=
  ∀ t, S.frameStartTime = some t → (∀ e, S.frameEndTime = some e → t ≤ e) ∧ ∀ ev ∈ evs, t ≤ ev.te

theorem orderedBefore_onByte {ev : Event Timestamp} {evs : List (Event Timestamp)} (hS : S.OrderedBefore (ev :: evs))
    (hev : ev.ts ≤ ev.te) (hevs : ∀ ev' ∈ evs, ev.ts ≤ ev'.te) : (onByte cfg u S ev).1.OrderedBefore evs := by
  intro t ht
  by_cases h0 : ev.byte = 0x00#8
  · rw [onByte_delim _ _ _ h0, flush_fst] at ht ⊢
    obtain rfl := Option.some.inj ht
    exact ⟨nofun, hevs⟩
  · rw [onByte_data _ _ _ h0, append_frameStartTime, latchStart_frameStartTime] at ht
    rw [onByte_data _ _ _ h0, append_frameEndTime]
    cases hstart : S.frameStartTime with
    | none =>
      obtain rfl : ev.ts = t := by simpa [hstart] using ht
      exact ⟨fun e he => Option.some.inj he ▸ hev, hevs⟩
    | some t' =>
      obtain rfl : t' = t := by simpa [hstart] using ht
      obtain ⟨-, hlater⟩ := hS t' hstart
      rw [List.forall_mem_cons] at hlater
      exact ⟨fun e he => Option.some.inj he ▸ hlater.1, hlater.2⟩

/-- R157: under the invariant an emitted frame has the two times that are recorded. -/
theorem times_of_onByte {TS : Type} {cfg : Config} {u : TS} {S : AccState TS} {ev : Event TS} {F : TimedFrame TS}
    (hinv : S.Inv) (hF : (onByte cfg u S ev).2 = some F) :
    S.frameStartTime = some F.startTime ∧ S.frameEndTime = some F.endTime := by
  obtain ⟨h0, hlen, hk⟩ := onByte_snd_isSome.mp (hF ▸ rfl : (onByte cfg u S ev).2.isSome = true)
  have hne : S.received ≠ [] := List.length_pos_iff.mp hlen
  obtain ⟨t, ht⟩ := Option.ne_none_iff_exists'.mp (frameStartTime_ne_none_of_inv hinv hne)
  obtain ⟨e, he⟩ := Option.ne_none_iff_exists'.mp (frameEndTime_ne_none_of_inv hinv hne)
  have hstrip : (S.strip cfg.k.val).received ≠ [] := strip_received_eq_nil.not.mpr (not_or.mpr ⟨hne, hk⟩)
  rw [onByte_delim _ _ _ h0, flush_of_strip_ne_nil u ev.ts he hstrip, ht] at hF
  obtain rfl := Option.some.inj hF
  exact ⟨ht, he⟩

theorem runEvents_ordered (hinv : S.Inv) {evs : List (Event Timestamp)} (hS : S.OrderedBefore evs)
    (hself : ∀ ev ∈ evs, ev.ts ≤ ev.te) (hlater : evs.Pairwise (fun a b => a.ts ≤ b.te)) :
    ∀ F ∈ (runEvents cfg u S evs).2, F.startTime ≤ F.endTime := by
  induction evs generalizing S with
  | nil => nofun
  | cons ev evs ih =>
    rw [List.forall_mem_cons] at hself
    rw [List.pairwise_cons] at hlater
    intro F hF
    rw [runEvents, List.mem_append, Option.mem_toList] at hF
    obtain hF | hF := hF
    · obtain ⟨hstart, hend⟩ := times_of_onByte hinv hF
      exact (hS _ hstart).1 _ hend
    · exact ih (onByte_inv hinv cfg u ev) (orderedBefore_onByte hS hself.1 hlater.1) hself.2 hlater.2 F hF

end

/-- Settles O50: at reset no time is set, so nothing is out of order. -/
theorem orderedEventsGiveOrderedFrames : Obligations.OrderedEventsGiveOrderedFrames :=
  fun _ _ _ hself hlater => runEvents_ordered reset_inv nofun hself hlater

end Sys2Proof.Machine
end
